-- ==== Sys2Proof/Word.lean ====
section
/-! DEFINITION. The word types of the machine (spec/00_scope.md R6, R8, R10; spec/30_encoding.md R71). -/

namespace Sys2Proof

/-- A memory byte or the content of a general register: 8 bits, unsigned. -/
abbrev Byte := BitVec 8

/-- A 16-bit quantity: an opcode word, `I`, `pc`, a stack entry. -/
abbrev Word16 := BitVec 16

/-- A 4-bit register selector, the `X` or `Y` field: it names `V[X]`, all 16 values legal (R72). -/
abbrev Reg := BitVec 4

/-- A 4-bit count or operation selector, the low nibble of a word. -/
abbrev Nibble := BitVec 4

/-- A 12-bit address immediate, the `NNN` field. -/
abbrev Addr12 := BitVec 12

end Sys2Proof
end

