-- ==== Sys2Proof/Syntax.lean ====
section
/-! DEFINITION. The instruction set as syntax: one constructor per row of the opcode map
(spec/30_encoding.md R74), in the map's order, with the operand fields of R71. -/

namespace Sys2Proof

/-- The 33 instructions of spec/30_encoding.md R74. -/
inductive Instr where
  /-- `CLS`, R160. -/
  | cls
  /-- `RET`, R100. -/
  | ret
  /-- `JP addr`, R101. -/
  | jp (nnn : Addr12)
  /-- `CALL addr`, R102. -/
  | call (nnn : Addr12)
  /-- `SE Vx, byte`, R103. -/
  | seByte (x : Reg) (nn : Byte)
  /-- `SNE Vx, byte`, R104. -/
  | sneByte (x : Reg) (nn : Byte)
  /-- `SE Vx, Vy`, R105. -/
  | seReg (x y : Reg)
  /-- `LD Vx, byte`, R120. -/
  | ldByte (x : Reg) (nn : Byte)
  /-- `ADD Vx, byte`, R121. -/
  | addByte (x : Reg) (nn : Byte)
  /-- `LD Vx, Vy`, R122. -/
  | ldReg (x y : Reg)
  /-- `OR Vx, Vy`, R123. -/
  | orReg (x y : Reg)
  /-- `AND Vx, Vy`, R124. -/
  | andReg (x y : Reg)
  /-- `XOR Vx, Vy`, R125. -/
  | xorReg (x y : Reg)
  /-- `ADD Vx, Vy`, R126. -/
  | addReg (x y : Reg)
  /-- `SUB Vx, Vy`, R127. -/
  | subReg (x y : Reg)
  /-- `SHR Vx {, Vy}`, R128. -/
  | shr (x y : Reg)
  /-- `SUBN Vx, Vy`, R129. -/
  | subnReg (x y : Reg)
  /-- `SHL Vx {, Vy}`, R130. -/
  | shl (x y : Reg)
  /-- `LD I, addr`, R140. -/
  | ldI (nnn : Addr12)
  /-- `JP V0, addr`, R106. -/
  | jpV0 (nnn : Addr12)
  /-- `RND Vx, byte`, R131. -/
  | rnd (x : Reg) (nn : Byte)
  /-- `DRW Vx, Vy, nibble`, R161. -/
  | drw (x y : Reg) (n : Nibble)
  /-- `SKP Vx`, R170. -/
  | skp (x : Reg)
  /-- `SKNP Vx`, R171. -/
  | sknp (x : Reg)
  /-- `LD Vx, DT`, R172. -/
  | ldVxDt (x : Reg)
  /-- `LD Vx, K`, R173. -/
  | ldVxK (x : Reg)
  /-- `LD DT, Vx`, R174. -/
  | ldDtVx (x : Reg)
  /-- `LD ST, Vx`, R175. -/
  | ldStVx (x : Reg)
  /-- `ADD I, Vx`, R141. -/
  | addI (x : Reg)
  /-- `LD F, Vx`, R142. -/
  | ldF (x : Reg)
  /-- `LD B, Vx`, R144. -/
  | ldB (x : Reg)
  /-- `LD [I], Vx`, R145. -/
  | storeRegs (x : Reg)
  /-- `LD Vx, [I]`, R146. -/
  | loadRegs (x : Reg)
  deriving DecidableEq, Repr

end Sys2Proof
end

