-- ==== Sys2Proof/Decode.lean ====
section
/-! DEFINITION. The decoder (spec/30_encoding.md R71, R73), the encoder written from the same formats
(R71, R74, R79), and the opcode map as masks and matches (R74). -/

namespace Sys2Proof

/-! ## Fields of a word (R8, R71) -/

/-- The class, bits 15:12. -/
def fieldClass (op : Word16) : BitVec 4 := op.extractLsb' 12 4
/-- `X`, bits 11:8. -/
def fieldX (op : Word16) : Reg := op.extractLsb' 8 4
/-- `Y`, bits 7:4. -/
def fieldY (op : Word16) : Reg := op.extractLsb' 4 4
/-- `N` or `k`, bits 3:0. -/
def fieldN (op : Word16) : Nibble := op.extractLsb' 0 4
/-- `NN` or `kk`, bits 7:0. -/
def fieldNN (op : Word16) : Byte := op.extractLsb' 0 8
/-- `NNN`, bits 11:0. -/
def fieldNNN (op : Word16) : Addr12 := op.extractLsb' 0 12

/-- What a word decodes to: a row of the opcode map, the optional `LD F10, Vx` (R143, only under
`P_ENC_LDF10`), or nothing, rejected by name with the word (R76). -/
inductive Decoded where
  | instr (i : Instr)
  | ldF10 (x : Reg)
  | unrecognized (op : Word16)
  deriving DecidableEq, Repr

/-- Class 0, keyed by the low byte alone; the second nibble is ignored (R73, R75). -/
def decodeSystem (op : Word16) : Decoded :=
  match fieldNN op with
  | 0xE0#8 => .instr .cls
  | 0xEE#8 => .instr .ret
  | _ => .unrecognized op

/-- Class 5, low nibble 0 only (R73, R75). -/
def decodeSkipReg (op : Word16) : Decoded :=
  match fieldN op with
  | 0x0#4 => .instr (.seReg (fieldX op) (fieldY op))
  | _ => .unrecognized op

/-- Class 8, keyed by the low nibble (R73). -/
def decodeAlu (op : Word16) : Decoded :=
  match fieldN op with
  | 0x0#4 => .instr (.ldReg (fieldX op) (fieldY op))
  | 0x1#4 => .instr (.orReg (fieldX op) (fieldY op))
  | 0x2#4 => .instr (.andReg (fieldX op) (fieldY op))
  | 0x3#4 => .instr (.xorReg (fieldX op) (fieldY op))
  | 0x4#4 => .instr (.addReg (fieldX op) (fieldY op))
  | 0x5#4 => .instr (.subReg (fieldX op) (fieldY op))
  | 0x6#4 => .instr (.shr (fieldX op) (fieldY op))
  | 0x7#4 => .instr (.subnReg (fieldX op) (fieldY op))
  | 0xE#4 => .instr (.shl (fieldX op) (fieldY op))
  | _ => .unrecognized op

/-- Class E, keyed by the low byte (R73). -/
def decodeKey (op : Word16) : Decoded :=
  match fieldNN op with
  | 0x9E#8 => .instr (.skp (fieldX op))
  | 0xA1#8 => .instr (.sknp (fieldX op))
  | _ => .unrecognized op

/-- Class F beyond its nine selectors: `LD F10, Vx` where `P_ENC_LDF10` gives this low byte (R73, R143). -/
def decodeLdF10 (encLdF10 : Option Byte) (op : Word16) : Decoded :=
  match encLdF10 with
  | some kk => if fieldNN op = kk then .ldF10 (fieldX op) else .unrecognized op
  | none => .unrecognized op

/-- Class F, keyed by the low byte (R73). -/
def decodeMisc (encLdF10 : Option Byte) (op : Word16) : Decoded :=
  match fieldNN op with
  | 0x07#8 => .instr (.ldVxDt (fieldX op))
  | 0x0A#8 => .instr (.ldVxK (fieldX op))
  | 0x15#8 => .instr (.ldDtVx (fieldX op))
  | 0x18#8 => .instr (.ldStVx (fieldX op))
  | 0x1E#8 => .instr (.addI (fieldX op))
  | 0x29#8 => .instr (.ldF (fieldX op))
  | 0x33#8 => .instr (.ldB (fieldX op))
  | 0x55#8 => .instr (.storeRegs (fieldX op))
  | 0x65#8 => .instr (.loadRegs (fieldX op))
  | _ => decodeLdF10 encLdF10 op

/-- The decode function of R73, total on 16-bit words; it depends on the word and `P_ENC_LDF10` only (R81). -/
def decode (encLdF10 : Option Byte) (op : Word16) : Decoded :=
  match fieldClass op with
  | 0x0#4 => decodeSystem op
  | 0x1#4 => .instr (.jp (fieldNNN op))
  | 0x2#4 => .instr (.call (fieldNNN op))
  | 0x3#4 => .instr (.seByte (fieldX op) (fieldNN op))
  | 0x4#4 => .instr (.sneByte (fieldX op) (fieldNN op))
  | 0x5#4 => decodeSkipReg op
  | 0x6#4 => .instr (.ldByte (fieldX op) (fieldNN op))
  | 0x7#4 => .instr (.addByte (fieldX op) (fieldNN op))
  | 0x8#4 => decodeAlu op
  | 0x9#4 => .unrecognized op
  | 0xA#4 => .instr (.ldI (fieldNNN op))
  | 0xB#4 => .instr (.jpV0 (fieldNNN op))
  | 0xC#4 => .instr (.rnd (fieldX op) (fieldNN op))
  | 0xD#4 => .instr (.drw (fieldX op) (fieldY op) (fieldN op))
  | 0xE#4 => decodeKey op
  | _ => decodeMisc encLdF10 op

/-- The word the two bytes of an instruction make: big-endian, the byte at the lower address first
(spec/20_memory.md R52). -/
def wordOfBytes (hi lo : Byte) : Word16 := hi ++ lo

/-- The high byte of a word, the one stored at the lower address (R52). -/
def highByte (op : Word16) : Byte := op.extractLsb' 8 8

/-- The low byte of a word, the one stored at the higher address (R52). -/
def lowByte (op : Word16) : Byte := op.extractLsb' 0 8

/-- The decoder on the bytes of an instruction as memory holds them. -/
def decodeBytes (encLdF10 : Option Byte) (hi lo : Byte) : Decoded :=
  decode encLdF10 (wordOfBytes hi lo)

/-- The row of the opcode map a decoded word stands for, if it stands for one. -/
def Decoded.instr? : Decoded → Option Instr
  | .instr i => some i
  | .ldF10 _ => none
  | .unrecognized _ => none

/-- The word whose low `nbits` bits are those of `w` and whose other bits are 0. -/
def tableWord (nbits w : Nat) : Word16 := BitVec.ofNat 16 (w % 2 ^ nbits)

/-- The instruction the decoder reads, under the default parameters, from a word numbered as
spec/opcode_table.json numbers it, laid out as memory holds it. -/
def decodeTableWord (nbits w : Nat) : Option Instr :=
  (decodeBytes none (highByte (tableWord nbits w)) (lowByte (tableWord nbits w))).instr?

/-! ## The encoder -/

/-- Format A: class and a 12-bit immediate. -/
def formatA (c : BitVec 4) (nnn : Addr12) : Word16 := c ++ nnn
/-- Formats I and K: class, `X` and a byte (an immediate, or a selector). Format Z is this with `X = 0` (R79). -/
def formatI (c : BitVec 4) (x : Reg) (nn : Byte) : Word16 := c ++ x ++ nn
/-- Formats R and D: class, `X`, `Y` and a nibble (a selector, or a count). -/
def formatR (c : BitVec 4) (x y : Reg) (n : Nibble) : Word16 := c ++ x ++ y ++ n

/-- The word of an instruction (R74); ignored nibbles are written 0 where the syntax has no operand for
them (R79: `CLS` and `RET`). -/
def encode : Instr → Word16
  | .cls => formatI 0x0 0x0 0xE0
  | .ret => formatI 0x0 0x0 0xEE
  | .jp nnn => formatA 0x1 nnn
  | .call nnn => formatA 0x2 nnn
  | .seByte x nn => formatI 0x3 x nn
  | .sneByte x nn => formatI 0x4 x nn
  | .seReg x y => formatR 0x5 x y 0x0
  | .ldByte x nn => formatI 0x6 x nn
  | .addByte x nn => formatI 0x7 x nn
  | .ldReg x y => formatR 0x8 x y 0x0
  | .orReg x y => formatR 0x8 x y 0x1
  | .andReg x y => formatR 0x8 x y 0x2
  | .xorReg x y => formatR 0x8 x y 0x3
  | .addReg x y => formatR 0x8 x y 0x4
  | .subReg x y => formatR 0x8 x y 0x5
  | .shr x y => formatR 0x8 x y 0x6
  | .subnReg x y => formatR 0x8 x y 0x7
  | .shl x y => formatR 0x8 x y 0xE
  | .ldI nnn => formatA 0xA nnn
  | .jpV0 nnn => formatA 0xB nnn
  | .rnd x nn => formatI 0xC x nn
  | .drw x y n => formatR 0xD x y n
  | .skp x => formatI 0xE x 0x9E
  | .sknp x => formatI 0xE x 0xA1
  | .ldVxDt x => formatI 0xF x 0x07
  | .ldVxK x => formatI 0xF x 0x0A
  | .ldDtVx x => formatI 0xF x 0x15
  | .ldStVx x => formatI 0xF x 0x18
  | .addI x => formatI 0xF x 0x1E
  | .ldF x => formatI 0xF x 0x29
  | .ldB x => formatI 0xF x 0x33
  | .storeRegs x => formatI 0xF x 0x55
  | .loadRegs x => formatI 0xF x 0x65

/-- The word of `LD F10, Vx` when `P_ENC_LDF10 = some kk` (R74, R143). -/
def encodeLdF10 (kk : Byte) (x : Reg) : Word16 := formatI 0xF x kk

/-! ## The opcode map as masks and matches (R74) -/

/-- The `mask` column of R74 for the row of an instruction. -/
def rowMask : Instr → Word16
  | .cls | .ret => 0xF0FF
  | .jp _ | .call _ | .ldI _ | .jpV0 _ => 0xF000
  | .seByte _ _ | .sneByte _ _ | .ldByte _ _ | .addByte _ _ | .rnd _ _ => 0xF000
  | .seReg _ _ | .ldReg _ _ | .orReg _ _ | .andReg _ _ | .xorReg _ _ => 0xF00F
  | .addReg _ _ | .subReg _ _ | .shr _ _ | .subnReg _ _ | .shl _ _ => 0xF00F
  | .drw _ _ _ => 0xF000
  | .skp _ | .sknp _ | .ldVxDt _ | .ldVxK _ | .ldDtVx _ | .ldStVx _ => 0xF0FF
  | .addI _ | .ldF _ | .ldB _ | .storeRegs _ | .loadRegs _ => 0xF0FF

/-- The `match` column of R74 for the row of an instruction. -/
def rowMatch : Instr → Word16
  | .cls => 0x00E0
  | .ret => 0x00EE
  | .jp _ => 0x1000
  | .call _ => 0x2000
  | .seByte _ _ => 0x3000
  | .sneByte _ _ => 0x4000
  | .seReg _ _ => 0x5000
  | .ldByte _ _ => 0x6000
  | .addByte _ _ => 0x7000
  | .ldReg _ _ => 0x8000
  | .orReg _ _ => 0x8001
  | .andReg _ _ => 0x8002
  | .xorReg _ _ => 0x8003
  | .addReg _ _ => 0x8004
  | .subReg _ _ => 0x8005
  | .shr _ _ => 0x8006
  | .subnReg _ _ => 0x8007
  | .shl _ _ => 0x800E
  | .ldI _ => 0xA000
  | .jpV0 _ => 0xB000
  | .rnd _ _ => 0xC000
  | .drw _ _ _ => 0xD000
  | .skp _ => 0xE09E
  | .sknp _ => 0xE0A1
  | .ldVxDt _ => 0xF007
  | .ldVxK _ => 0xF00A
  | .ldDtVx _ => 0xF015
  | .ldStVx _ => 0xF018
  | .addI _ => 0xF01E
  | .ldF _ => 0xF029
  | .ldB _ => 0xF033
  | .storeRegs _ => 0xF055
  | .loadRegs _ => 0xF065

end Sys2Proof
end

