-- ==== Sys2Proof/Config.lean ====
section
/-! DEFINITION. The open parameters of spec/00_scope.md R7, each with the default R7 states, and the free
value of the model (the random byte). -/

namespace Sys2Proof

/-- `P_OOB`: an address above 0xFFF raises a fatal fault, or is reduced modulo 4096. -/
inductive OobPolicy where
  | fault
  | wrap
  deriving DecidableEq, Repr

/-- `P_DRAW_EDGE`: a sprite pixel past the right or bottom edge wraps, or is not drawn. -/
inductive DrawEdge where
  | wrap
  | clip
  deriving DecidableEq, Repr

/-- `P_SHIFT_SRC`: `SHR` and `SHL` shift `V[X]` in place, or shift `V[Y]` into `V[X]`. -/
inductive ShiftSrc where
  | vx
  | vy
  deriving DecidableEq, Repr

/-- `P_VF_ORDER`: which of the result and the flag is written last. -/
inductive VfOrder where
  | flagLast
  | flagFirst
  deriving DecidableEq, Repr

/-- `P_KEY_INDEX`: a key index above 15 raises a fatal fault, or its low four bits are used. -/
inductive KeyIndexPolicy where
  | fault
  | mask4
  deriving DecidableEq, Repr

/-- `rnd`: a free byte each step, or the bytes a test harness substitutes, one per completed step
(spec/10_state.md R34; assumption log 2 and 3). -/
inductive RndSource where
  | free
  | harness (bytes : List Byte)
  deriving DecidableEq, Repr

/-- The open parameters of R7. They are fixed for a machine: no step writes them. -/
structure Config where
  /-- `P_OOB`, default `fault`. -/
  oob : OobPolicy := .fault
  /-- `P_DRAW_EDGE`, default `wrap`. -/
  drawEdge : DrawEdge := .wrap
  /-- `P_SHIFT_SRC`, default `Vx`. -/
  shiftSrc : ShiftSrc := .vx
  /-- `P_VF_ORDER`, default `flag_last`. -/
  vfOrder : VfOrder := .flagLast
  /-- `P_KEY_INDEX`, default `fault`. -/
  keyIndex : KeyIndexPolicy := .fault
  /-- `P_ENC_LDF10`, default `none`: the low byte that selects `LD F10, Vx` in class F. -/
  encLdF10 : Option Byte := none
  /-- `rnd`, default a free input. -/
  rnd : RndSource := .free
  /-- `P_PRELOAD`, default none: bytes the platform writes from 0x000 before the first step. -/
  preload : List Byte := []
  deriving DecidableEq, Repr

/-- Every parameter at its default (R7). -/
def Config.default : Config := {}

/-- FREE VALUE. The random byte of the `n`-th completed step since power-on: no body, no law
(spec/10_state.md R34; spec/92_eei_decisions.md D12; assumption log 2). -/
opaque Config.freeByte : Nat → Byte

end Sys2Proof
end

