-- ==== Sys2Proof/Machine/State.lean ====
section
/-! DEFINITION. The state of the machine (spec/10_state.md), the reasons a step could stop, and reset
(R32; spec/70_reset_and_hazards.md R230). -/

namespace Sys2Proof.Machine

/-- Addressable Memory (R29): the listed bytes, addresses strictly rising, none equal to what an unlisted
address reads as, which is the reset value 0x00. -/
abbrev Memory := List Host.Cell

/-- The framebuffer (R27): 32 rows, counted from the top, of 64 one-bit cells, counted from the left;
`true` is 1, a lit cell (spec/44_display.md R162). -/
abbrev Screen := Vector (Vector Bool 64) 32

/-- The key-state vector (R28): `true` is 1, pressed. -/
abbrev Keys := Vector Bool 16

/-- The `STATUS` block (R30), read by the host between steps, invisible to every instruction. -/
structure Status where
  /-- `HALT`: 1 after a fatal fault, cleared only by reset. -/
  halt : Bool
  /-- `CAUSE`: the code of the fatal fault (spec/60_exceptions.md R200), 0 for none. -/
  cause : BitVec 3
  /-- `FAULT_PC`: the fetch address of the instruction that faulted. -/
  faultPc : Word16
  /-- `FAULT_OP`: its opcode word; 0 for `FetchBounds`. -/
  faultOp : Word16
  /-- `FAULT_INFO`: the offending value. -/
  faultInfo : BitVec 17
  /-- `DERR`: sticky, 1 once an unrecognized word has been executed. -/
  derr : Bool
  /-- `DERR_PC`: the fetch address of the first unrecognized word. -/
  derrPc : Word16
  /-- `DERR_OP`: that word. -/
  derrOp : Word16
  deriving DecidableEq, Repr

/-- Every piece of state of spec/10_state.md, and the model's own `cfg` and `draws`. -/
structure State where
  /-- The open parameters of spec/00_scope.md R7: no step writes them (assumption log 1). -/
  cfg : Config
  /-- `V[0]` to `V[15]`, the last being `VF` (R20, R21). -/
  v : Vector Byte 16
  /-- `I` (R22). -/
  i : Word16
  /-- `pc` (R23): between steps, the address of the next instruction to fetch. -/
  pc : Word16
  /-- `SP`, 0 to 16: the number of occupied stack entries (R24). -/
  sp : Fin 17
  /-- `STK[0]` to `STK[15]` (R24). -/
  stk : Vector Word16 16
  /-- `DT` (R25). -/
  dt : Byte
  /-- `ST` (R26). -/
  st : Byte
  /-- `FB` (R27). -/
  fb : Screen
  /-- `KEY` (R28), written only by the host. -/
  key : Keys
  /-- `MEM` (R29). -/
  mem : Memory
  /-- `STATUS` (R30). -/
  status : Status
  /-- The MODEL's own field: the number of completed steps, the index of the next step's random byte
  (R34; assumption log 2). -/
  draws : Nat
  deriving DecidableEq, Repr

/-- Reasons a step stops the model. There is none: every fatal fault of this hardware has an entry the spec
describes (spec/60_exceptions.md R208), so a step takes it and answers a NEXT state with `HALT` set, and a
halted engine answers every step request with its own state (spec/40_step_cycle.md R97). Nobody raises a
`Fault`, which is why the type has no constructor (assumption log 4). -/
inductive Fault where
  deriving DecidableEq, Repr

/-- Reasons a step has no meaning in the model. -/
inductive Refusal where
  /-- Raised only by an arm of `exec` whose instruction has no meaning yet (none has it now). Safe: a
  refused step proves nothing about the hardware. -/
  | notModelled (mnemonic : String)
  deriving DecidableEq, Repr

/-- `STATUS` after reset: every field 0 (R32). -/
def Status.reset : Status where
  halt := false
  cause := 0
  faultPc := 0
  faultOp := 0
  faultInfo := 0
  derr := false
  derrPc := 0
  derrOp := 0

/-- The machine right after reset, for the given parameters: everything 0 but `pc`, the load origin 0x200
(R32; spec/70_reset_and_hazards.md R230). -/
def State.resetOf (cfg : Config) : State where
  cfg := cfg
  v := Vector.replicate 16 0
  i := 0
  pc := 0x200
  sp := 0
  stk := Vector.replicate 16 0
  dt := 0
  st := 0
  fb := Vector.replicate 32 (Vector.replicate 64 false)
  key := Vector.replicate 16 false
  mem := []
  status := Status.reset
  draws := 0

/-- The machine right after reset with every open parameter at its default. -/
def State.reset : State := State.resetOf Config.default

end Sys2Proof.Machine
end

