-- ==== Sys2Proof/Machine/Ops.lean ====
section
/-! DEFINITION. The named operations over memory, registers, the stack, the framebuffer and `STATUS`; the
fetch and the phases every step shares; taking a fatal fault and reporting a decode error
(spec/20_memory.md, spec/40_step_cycle.md, spec/60_exceptions.md). -/

namespace Sys2Proof.Machine

/-! ## Addressable Memory (spec/20_memory.md) -/

/-- The canonical form: addresses strictly rising and inside the 4096 bytes (R50), no byte listed that is
what an unlisted address reads as. -/
abbrev Memory.wf (m : Memory) : Prop :=
  m.Pairwise (fun c d => c.1 < d.1) ∧ ∀ c ∈ m, c.1 < 4096 ∧ c.2 ≠ 0

/-- What an address no entry lists reads as: the reset contents 0x00 (R51; spec/10_state.md R29). -/
def Memory.unlisted : Byte := 0

/-- The byte at an address (R57: a read has no side effect). -/
def Memory.read : Memory → Nat → Byte
  | [], _ => Memory.unlisted
  | (k, b) :: m, a => if a = k then b else Memory.read m a

/-- An entry in front of `m`, unless it holds what an unlisted address reads as anyway. -/
def Memory.put (a : Nat) (b : Byte) (m : Memory) : Memory :=
  if b = Memory.unlisted then m else (a, b) :: m

/-- Store a byte (R57: it changes that byte and nothing else), keeping the canonical form. -/
def Memory.write : Memory → Nat → Byte → Memory
  | [], a, b => Memory.put a b []
  | (k, c) :: m, a, b =>
    if a < k then Memory.put a b ((k, c) :: m)
    else if a = k then Memory.put a b m
    else (k, c) :: Memory.write m a b

/-- The byte of memory an effective address names: the address itself up to 0xFFF, and modulo 4096 above,
which only `P_OOB = wrap` lets an access reach (R55, R56). -/
def physAddr (a : Nat) : Nat := a % 4096

/-- `MemRead(a, 1)` after the bounds rule has let the access pass (R55). -/
def State.memRead (s : State) (a : Nat) : Byte := s.mem.read (physAddr a)

/-- The bytes at `a`, `a + 1`, …, in ascending order. -/
def State.memBytes (s : State) : Nat → Nat → List Byte
  | _, 0 => []
  | a, n + 1 => s.memRead a :: s.memBytes (a + 1) n

/-- `MemWrite(a, 1, v)` for the listed bytes at `a`, `a + 1`, …, in ascending order (R53, R58). -/
def storeBytes (m : Memory) : Nat → List Byte → Memory
  | _, [] => m
  | a, b :: bs => storeBytes (m.write (physAddr a) b) (a + 1) bs

/-! ## Registers (spec/10_state.md R20) -/

/-- Read `V[x]`. -/
def State.reg (s : State) (x : Reg) : Byte := s.v[x.toNat]'(x.isLt)

/-- `V[x] <- b`. -/
def State.setReg (s : State) (x : Reg) (b : Byte) : State :=
  { s with v := s.v.set x.toNat b x.isLt }

/-- `VF`, the flag register, is `V[15]` (R21). -/
def regVF : Reg := 0xF

/-- `V[0]`, …, `V[n - 1]` in ascending order. -/
def State.firstRegs (s : State) : Nat → List Byte
  | 0 => []
  | n + 1 => s.firstRegs n ++ [s.reg (BitVec.ofNat 4 n)]

/-- `I <- a`. -/
def State.setI (s : State) (a : Word16) : State := { s with i := a }

/-- `pc <- a`. -/
def State.setPc (s : State) (a : Word16) : State := { s with pc := a }

/-- Phase 2 of the step: `pc <- (pc + 2) mod 65536` (spec/40_step_cycle.md R92). -/
def State.advance (s : State) : State := s.setPc (s.pc + 2)

/-- `skip`: a further 2, in addition to the advance (spec/00_scope.md R11; spec/41_control_flow.md R107). -/
def State.skipIf (s : State) (c : Bool) : State := if c then s.setPc (s.pc + 2) else s

/-! ## Fetch (spec/40_step_cycle.md R91; spec/20_memory.md R52) -/

/-- The word at `a` and the next address, big-endian. -/
def State.wordAt (s : State) (a : Nat) : Word16 := wordOfBytes (s.memRead a) (s.memRead (a + 1))

/-- The fetch would reach outside memory, and `P_OOB = fault` (R91). -/
def State.fetchOut (s : State) : Bool :=
  decide (s.cfg.oob = .fault ∧ s.pc.toNat + 1 > 0xFFF)

/-! ## Fatal faults and the report (spec/60_exceptions.md) -/

/-- The fatal faults of R200. -/
inductive FatalFault where
  | stackOverflow
  | stackUnderflow
  | memBounds
  | fetchBounds
  | keyIndex
  deriving DecidableEq, Repr

/-- The cause code of a fatal fault (R200). -/
def causeCode : FatalFault → BitVec 3
  | .stackOverflow => 2
  | .stackUnderflow => 3
  | .memBounds => 4
  | .fetchBounds => 5
  | .keyIndex => 6

/-- `FAULT_OP`: the fetched word, 0 for `FetchBounds` (R200). The word is read where the step fetched it:
no write of the step has happened yet (R96; assumption log 6). -/
def faultWord (f : FatalFault) (s : State) : Word16 :=
  match f with
  | .fetchBounds => 0
  | .stackOverflow | .stackUnderflow | .memBounds | .keyIndex => s.wordAt s.pc.toNat

/-- FATAL FAULT ENTRY (R208), on the state before the faulting instruction, `pc` at its fetch address: only
`STATUS` is written and `HALT` set. There is no return from it (R209): reset is the only exit. -/
def takeFault (f : FatalFault) (info : Nat) (s : State) : State :=
  { s with
    status :=
      { s.status with
        halt := true
        cause := causeCode f
        faultPc := s.pc
        faultOp := faultWord f s
        faultInfo := BitVec.ofNat 17 info } }

/-- `report DecodeError(op)` (R202): sticky, the first occurrence captured. -/
def reportDecodeError (op : Word16) (s : State) : State :=
  { s with
    status :=
      { s.status with
        derr := true
        derrPc := if s.status.derr then s.status.derrPc else s.pc
        derrOp := if s.status.derr then s.status.derrOp else op } }

/-- An instruction that reads or writes `n` bytes from `I` upward reaches past 0xFFF, and `P_OOB = fault`
(spec/20_memory.md R55). -/
def State.dataOut (s : State) (n : Nat) : Bool :=
  decide (s.cfg.oob = .fault ∧ 0 < n ∧ s.i.toNat + n - 1 > 0xFFF)

/-- The range check of the four memory instructions (R55, R205): `MemBounds` before the first access, with
the lowest offending address, or the effect `k` on the state after the advance. -/
def withData (n : Nat) (s : State) (k : State → State) : Host.Outcome State Fault Refusal :=
  if s.dataOut n then .next (takeFault .memBounds (max s.i.toNat 0x1000) s)
  else .next (k s.advance)

/-! ## The call stack (spec/10_state.md R24) -/

/-- Push the return address and jump: `StackOverflow` when `SP = 16`, else `STK[SP] <- a`, `SP <- SP + 1`,
`pc <- target` (spec/41_control_flow.md R102). -/
def pushAndJump (target : Word16) (s : State) : State :=
  if h : s.sp.val < 16 then
    { s with
      stk := s.stk.set s.sp.val (s.pc + 2) h
      sp := ⟨s.sp.val + 1, by omega⟩
      pc := target }
  else takeFault .stackOverflow s.sp.val s

/-- Pop the return address into `pc`: `StackUnderflow` when `SP = 0`, else `SP <- SP - 1`,
`pc <- STK[SP]`; the popped entry is not erased (spec/41_control_flow.md R100). -/
def popAndJump (s : State) : State :=
  if h : s.sp.val = 0 then takeFault .stackUnderflow s.sp.val s
  else
    { s with
      sp := ⟨s.sp.val - 1, by omega⟩
      pc := s.stk[s.sp.val - 1]'(by omega) }

/-! ## The framebuffer (spec/10_state.md R27) -/

/-- A cell of the framebuffer: its row and its column. -/
abbrev Pixel := Fin 32 × Fin 64

/-- `FB[y][x]`. -/
def Screen.lit (fb : Screen) (p : Pixel) : Bool := (fb[p.1])[p.2]

/-- `FB[y][x] <- FB[y][x] ^ 1`. -/
def Screen.flip (fb : Screen) (p : Pixel) : Screen :=
  fb.set p.1.val ((fb[p.1]).set p.2.val (!Screen.lit fb p) p.2.isLt) p.1.isLt

/-- Every cell 0. -/
def Screen.clear : Screen := Vector.replicate 32 (Vector.replicate 64 false)

/-! ## The random byte (spec/10_state.md R34) -/

/-- `rnd`: the byte drawn for the step that is about to complete. Under `free` it is the free value; a
harness's byte of that step takes its place where it supplies one (assumption log 2, 3). -/
def rndByte (s : State) : Byte :=
  match s.cfg.rnd with
  | .free => Config.freeByte s.draws
  | .harness bytes => bytes.getD s.draws (Config.freeByte s.draws)

/-! ## The post-step (spec/40_step_cycle.md R95) -/

/-- Count down by 1 while positive, stay at 0. -/
def countDown (t : Byte) : Byte := if t = 0 then 0 else t - 1

/-- Phase 5: both timers count down; the step's random byte is used up. -/
def postStep (s : State) : State :=
  { s with dt := countDown s.dt, st := countDown s.st, draws := s.draws + 1 }

/-- Phase 5 runs on every completed step and not on one that raised a fatal fault (R95 (d), R96); a step
begins with `HALT = 0`, so `HALT = 1` here says that this step raised one. -/
def finish (o : Host.Outcome State Fault Refusal) : Host.Outcome State Fault Refusal :=
  match o with
  | .next s => .next (if s.status.halt then s else postStep s)
  | .fault r => .fault r
  | .refused r => .refused r

end Sys2Proof.Machine
end

