-- ==== Sys2Proof/Machine/Operands.lean ====
section
/-! DEFINITION. The operand forms that are more than a register or an immediate: the shifted register, the
zero-extended address, the key cell, the sprite's cells (spec/42_alu.md R128, spec/30_encoding.md R72,
spec/45_timers_keys.md, spec/44_display.md R161). -/

namespace Sys2Proof.Machine

/-- `zext_16(NNN)` (R72). -/
def addrWord (nnn : Addr12) : Word16 := nnn.setWidth 16

/-- `zext_16(V[X])`. -/
def byteWord (b : Byte) : Word16 := b.setWidth 16

/-- The operand of `SHR` and `SHL`: `V[X]` in place by default, `V[Y]` under `P_SHIFT_SRC = Vy` (R128). -/
def shiftOperand (x y : Reg) (s : State) : Byte :=
  match s.cfg.shiftSrc with
  | .vx => s.reg x
  | .vy => s.reg y

/-- The index of the key cell `SKP` and `SKNP` read for a register value; none where `P_KEY_INDEX = fault`
raises `KeyIndex` (`KeyCell` of spec/45_timers_keys.md). -/
def keyIndexOf (policy : KeyIndexPolicy) (v : Byte) : Option (Fin 16) :=
  if h : v.toNat ≤ 15 then some ⟨v.toNat, by omega⟩
  else
    match policy with
    | .mask4 => some ⟨v.toNat % 16, by omega⟩
    | .fault => none

/-- The least pressed key, if any (R173). -/
def lowestKey (keys : Keys) : Option (Fin 16) := (List.finRange 16).find? (fun j => keys[j])

/-- The cell that sprite column `x` and row `y`, counted from the screen's origin without a bound, falls on:
each coordinate wrapped on its own, or none where the pixel is clipped (R161). -/
def placePixel (edge : DrawEdge) (x y : Nat) : Option Pixel :=
  match edge with
  | .wrap => some (Fin.ofNat 32 y, Fin.ofNat 64 x)
  | .clip => if x > 63 ∨ y > 31 then none else some (Fin.ofNat 32 y, Fin.ofNat 64 x)

/-- The cells the set bits of one sprite byte fall on, left to right: bit 7 is the leftmost (R161). -/
def rowPixels (edge : DrawEdge) (x0 y : Nat) (b : Byte) : List Pixel :=
  (List.range 8).filterMap fun c => if b.getLsbD (7 - c) then placePixel edge (x0 + c) y else none

/-- The cells the set bits of a sprite fall on, row by row downward (R161). -/
def spritePixels (edge : DrawEdge) (x0 : Nat) : Nat → List Byte → List Pixel
  | _, [] => []
  | y, b :: bs => rowPixels edge x0 y b ++ spritePixels edge x0 (y + 1) bs

/-- Exclusive-or the listed cells one after the other; the flag says that some cell went from 1 to 0 (R161). -/
def drawPixels (fb : Screen) (coll : Bool) : List Pixel → Screen × Bool
  | [] => (fb, coll)
  | p :: ps => drawPixels (Screen.flip fb p) (coll || Screen.lit fb p) ps

/-- The cells `DRW Vx, Vy, n` aims at: the origin is `V[X] mod 64`, `V[Y] mod 32`, row `r` of the sprite is the
byte at `I + r` (R161). -/
def drwPixels (x y : Reg) (n : Nibble) (s : State) : List Pixel :=
  spritePixels s.cfg.drawEdge ((s.reg x).toNat % 64) ((s.reg y).toNat % 32) (s.memBytes s.i.toNat n.toNat)

end Sys2Proof.Machine
end

