-- ==== Sys2Proof/Machine/ControlFlow.lean ====
section
/-! DEFINITION. The control-flow instructions (spec/41_control_flow.md). Every meaning takes the state whose
`pc` is the fetch address and makes the advance of phase 2 itself (assumption log 7). -/

namespace Sys2Proof.Machine

/-- The outcome of a meaning. -/
abbrev Result := Host.Outcome State Fault Refusal

/-- `RET`, R100, R204. -/
def execRet (s : State) : Result := .next (popAndJump s)

/-- `JP addr`, R101. -/
def execJp (nnn : Addr12) (s : State) : Result := .next (s.advance.setPc (addrWord nnn))

/-- `CALL addr`, R102, R203. -/
def execCall (nnn : Addr12) (s : State) : Result := .next (pushAndJump (addrWord nnn) s)

/-- `SE Vx, byte`, R103. -/
def execSeByte (x : Reg) (nn : Byte) (s : State) : Result :=
  .next (s.advance.skipIf (decide (s.reg x = nn)))

/-- `SNE Vx, byte`, R104. -/
def execSneByte (x : Reg) (nn : Byte) (s : State) : Result :=
  .next (s.advance.skipIf (decide (s.reg x ≠ nn)))

/-- `SE Vx, Vy`, R105. -/
def execSeReg (x y : Reg) (s : State) : Result :=
  .next (s.advance.skipIf (decide (s.reg x = s.reg y)))

/-- `JP V0, addr`, R106. -/
def execJpV0 (nnn : Addr12) (s : State) : Result :=
  .next (s.advance.setPc (addrWord nnn + byteWord (s.reg 0)))

end Sys2Proof.Machine
end

