-- ==== Sys2Proof/Machine/Flags.lean ====
section
/-! DEFINITION. The flag values and the order of the result write and the flag write
(spec/42_alu.md R126 to R130, R133; spec/10_state.md R21). -/

namespace Sys2Proof.Machine

/-- A flag as a register value: exactly 0 or 1, zero-extended (R21). -/
def flagByte (c : Bool) : Byte := if c then 1 else 0

/-- The carry out of an addition: the exact sum exceeds 255 (R126). -/
def carryOut (a b : Byte) : Bool := decide (a.toNat + b.toNat > 255)

/-- No borrow: the minuend is at least the subtrahend (R127, R129). -/
def noBorrow (minuend subtrahend : Byte) : Bool := decide (minuend.toNat ≥ subtrahend.toNat)

/-- Bit 0 of the operand before a right shift (R128). -/
def shiftedOutRight (t : Byte) : Bool := t.getLsbD 0

/-- Bit 7 of the operand before a left shift (R130). -/
def shiftedOutLeft (t : Byte) : Bool := t.getLsbD 7

/-- `WriteResultAndFlag(X, r, f)` (R133): under `flag_last` the flag survives at `X = 15`, under `flag_first`
the result does. -/
def writeResultAndFlag (x : Reg) (r : Byte) (f : Bool) (s : State) : State :=
  match s.cfg.vfOrder with
  | .flagLast => (s.setReg x r).setReg regVF (flagByte f)
  | .flagFirst => (s.setReg regVF (flagByte f)).setReg x r

end Sys2Proof.Machine
end

