-- ==== Sys2Proof/Machine/Alu.lean ====
section
/-! DEFINITION. Register load, arithmetic, logic and random instructions (spec/42_alu.md). Operands are read
from the state before any write (R133). -/

namespace Sys2Proof.Machine

/-- `LD Vx, byte`, R120. -/
def execLdByte (x : Reg) (nn : Byte) (s : State) : Result := .next (s.advance.setReg x nn)

/-- `ADD Vx, byte`, R121: modulo 256, no flag. -/
def execAddByte (x : Reg) (nn : Byte) (s : State) : Result :=
  .next (s.advance.setReg x (s.reg x + nn))

/-- `LD Vx, Vy`, R122. -/
def execLdReg (x y : Reg) (s : State) : Result := .next (s.advance.setReg x (s.reg y))

/-- `OR Vx, Vy`, R123. -/
def execOr (x y : Reg) (s : State) : Result := .next (s.advance.setReg x (s.reg x ||| s.reg y))

/-- `AND Vx, Vy`, R124. -/
def execAnd (x y : Reg) (s : State) : Result := .next (s.advance.setReg x (s.reg x &&& s.reg y))

/-- `XOR Vx, Vy`, R125. -/
def execXor (x y : Reg) (s : State) : Result := .next (s.advance.setReg x (s.reg x ^^^ s.reg y))

/-- `ADD Vx, Vy`, R126. -/
def execAddReg (x y : Reg) (s : State) : Result :=
  .next (writeResultAndFlag x (s.reg x + s.reg y) (carryOut (s.reg x) (s.reg y)) s.advance)

/-- `SUB Vx, Vy`, R127. -/
def execSub (x y : Reg) (s : State) : Result :=
  .next (writeResultAndFlag x (s.reg x - s.reg y) (noBorrow (s.reg x) (s.reg y)) s.advance)

/-- `SHR Vx {, Vy}`, R128. -/
def execShr (x y : Reg) (s : State) : Result :=
  .next (writeResultAndFlag x (shiftOperand x y s >>> 1) (shiftedOutRight (shiftOperand x y s)) s.advance)

/-- `SUBN Vx, Vy`, R129. -/
def execSubn (x y : Reg) (s : State) : Result :=
  .next (writeResultAndFlag x (s.reg y - s.reg x) (noBorrow (s.reg y) (s.reg x)) s.advance)

/-- `SHL Vx {, Vy}`, R130. -/
def execShl (x y : Reg) (s : State) : Result :=
  .next (writeResultAndFlag x (shiftOperand x y s <<< 1) (shiftedOutLeft (shiftOperand x y s)) s.advance)

/-- `RND Vx, byte`, R131. -/
def execRnd (x : Reg) (nn : Byte) (s : State) : Result :=
  .next (s.advance.setReg x (rndByte s &&& nn))

end Sys2Proof.Machine
end

