-- ==== Sys2Proof/Machine/Display.lean ====
section
/-! DEFINITION. The display instructions (spec/44_display.md). -/

namespace Sys2Proof.Machine

/-- Draw the cells and write the collision flag to `VF`, after every read of the registers (R161). -/
def drawSprite (cells : List Pixel) (s : State) : State :=
  State.setReg { s with fb := (drawPixels s.fb false cells).1 } regVF
    (flagByte (drawPixels s.fb false cells).2)

/-- `CLS`, R160. -/
def execCls (s : State) : Result := .next { s.advance with fb := Screen.clear }

/-- `DRW Vx, Vy, nibble`, R161, R205. With `n = 0` no memory is read and the range check cannot fail. -/
def execDrw (x y : Reg) (n : Nibble) (s : State) : Result :=
  withData n.toNat s (drawSprite (drwPixels x y n s))

end Sys2Proof.Machine
end

