-- ==== Sys2Proof/Machine/Index.lean ====
section
/-! DEFINITION. Index register, BCD and block load/store instructions (spec/43_index_memory.md), the optional
`LD F10, Vx` among them (R143). -/

namespace Sys2Proof.Machine

/-- The decimal digits of a byte, hundreds first, one digit a byte (R144). -/
def bcdDigits (v : Byte) : List Byte :=
  [BitVec.ofNat 8 (v.toNat / 100), BitVec.ofNat 8 (v.toNat / 10 % 10), BitVec.ofNat 8 (v.toNat % 10)]

/-- Store bytes from `I` upward; `I` is unchanged (R144, R145). -/
def storeFromI (bytes : List Byte) (s : State) : State :=
  { s with mem := storeBytes s.mem s.i.toNat bytes }

/-- `V[k] <- MemRead(I + k, 1)` for `k` from 0 to `n - 1`, ascending; `I` is unchanged (R146). -/
def loadFromI : Nat → State → State
  | 0, s => s
  | n + 1, s => (loadFromI n s).setReg (BitVec.ofNat 4 n) (s.memRead (s.i.toNat + n))

/-- `LD I, addr`, R140. -/
def execLdI (nnn : Addr12) (s : State) : Result := .next (s.advance.setI (addrWord nnn))

/-- `ADD I, Vx`, R141: modulo 65536, no flag. -/
def execAddI (x : Reg) (s : State) : Result := .next (s.advance.setI (s.i + byteWord (s.reg x)))

/-- `LD F, Vx`, R142: the whole 8-bit value, not masked to a digit. -/
def execLdF (x : Reg) (s : State) : Result := .next (s.advance.setI (byteWord (s.reg x) * 5))

/-- `LD F10, Vx`, R143: no row of the opcode table, reached only through `P_ENC_LDF10` (assumption log 11). -/
def execLdF10 (x : Reg) (s : State) : Result := .next (s.advance.setI (byteWord (s.reg x) * 10))

/-- `LD B, Vx`, R144, R205. -/
def execLdB (x : Reg) (s : State) : Result := withData 3 s (storeFromI (bcdDigits (s.reg x)))

/-- `LD [I], Vx`, R145, R205: `V[0]` to `V[X]`, inclusive. -/
def execStoreRegs (x : Reg) (s : State) : Result :=
  withData (x.toNat + 1) s (storeFromI (s.firstRegs (x.toNat + 1)))

/-- `LD Vx, [I]`, R146, R205: `V[0]` to `V[X]`, inclusive. -/
def execLoadRegs (x : Reg) (s : State) : Result :=
  withData (x.toNat + 1) s (loadFromI (x.toNat + 1))

end Sys2Proof.Machine
end

