-- ==== Sys2Proof/Machine/TimersKeys.lean ====
section
/-! DEFINITION. Keyboard and timer instructions (spec/45_timers_keys.md). The post-step decrement is not part
of a meaning (spec/40_step_cycle.md R95). -/

namespace Sys2Proof.Machine

/-- Skip when the key cell that `V[X]` names holds `want`, or raise `KeyIndex(V[X])` (R170, R171, R206). -/
def skipOnKey (want : Bool) (x : Reg) (s : State) : Result :=
  match keyIndexOf s.cfg.keyIndex (s.reg x) with
  | some j => .next (s.advance.skipIf (decide (s.key[j] = want)))
  | none => .next (takeFault .keyIndex (s.reg x).toNat s)

/-- `SKP Vx`, R170. -/
def execSkp (x : Reg) (s : State) : Result := skipOnKey true x s

/-- `SKNP Vx`, R171. -/
def execSknp (x : Reg) (s : State) : Result := skipOnKey false x s

/-- `LD Vx, DT`, R172. -/
def execLdVxDt (x : Reg) (s : State) : Result := .next (s.advance.setReg x s.dt)

/-- `LD Vx, K`, R173: the lowest pressed key, or `pc` rolled back by 2 so that the word is fetched again. -/
def execLdVxK (x : Reg) (s : State) : Result :=
  match lowestKey s.key with
  | some j => .next (s.advance.setReg x (BitVec.ofNat 8 j.val))
  | none => .next (s.advance.setPc (s.advance.pc - 2))

/-- `LD DT, Vx`, R174. -/
def execLdDtVx (x : Reg) (s : State) : Result := .next { s.advance with dt := s.reg x }

/-- `LD ST, Vx`, R175. -/
def execLdStVx (x : Reg) (s : State) : Result := .next { s.advance with st := s.reg x }

end Sys2Proof.Machine
end

