-- ==== Sys2Proof/Machine/Cycle.lean ====
section
/-! DEFINITION. The step cycle (spec/40_step_cycle.md R90): halt check, fetch, decode, dispatch, post-step. -/

namespace Sys2Proof.Machine

/-- Phases 2 to 5 for a decoded word. An unrecognized word is a reported no-op (spec/60_exceptions.md R202). -/
def runDecoded (d : Decoded) (s : State) : Host.Outcome State Fault Refusal :=
  match d with
  | .instr i => finish (exec i s)
  | .ldF10 x => finish (execLdF10 x s)
  | .unrecognized op => finish (.next (reportDecodeError op s).advance)

/-- One step request (R90): nothing on a halted engine (R97), `FetchBounds` where the fetch would leave
memory (R91), else the fetched word. -/
def cycle (s : State) : Host.Outcome State Fault Refusal :=
  if s.status.halt then .next s
  else if s.fetchOut then .next (takeFault .fetchBounds (max s.pc.toNat 0x1000) s)
  else runDecoded (decode s.cfg.encLdF10 (s.wordAt s.pc.toNat)) s

/-- A word stored at an address and the next, high byte first (spec/20_memory.md R52). -/
def State.placeWord (s : State) (a : Nat) (op : Word16) : State :=
  { s with mem := storeBytes s.mem a [highByte op, lowByte op] }

/-- A state from which the next step fetches: `s` itself, except that a halted engine has its fault record
cleared and a `pc` the fetch cannot use is put to the origin (assumption log 8). -/
def State.readyToFetch (s : State) : State :=
  { s with
    pc := if s.fetchOut then 0x200 else s.pc
    status :=
      if s.status.halt then
        { s.status with halt := false, cause := 0, faultPc := 0, faultOp := 0, faultInfo := 0 }
      else s.status }

/-- `s` with a word placed where its next step fetches it. -/
def State.placeNext (s : State) (op : Word16) : State :=
  s.readyToFetch.placeWord s.readyToFetch.pc.toNat op

end Sys2Proof.Machine
end

