-- ==== Sys2Proof/WellFormed.lean ====
section
/-! DEFINITION. Well-formedness: of an instruction, of the open parameters and of a program image.

Every operand field of an instruction has exactly the width of its field in the word and all its values
are legal (spec/30_encoding.md R72), so every term of `Instr` is well formed by its type and needs no check
of its own. What can be ill formed is what the host supplies: the parameters of R7 and the images. -/

namespace Sys2Proof

/-- The nine low bytes that select an instruction of class F (spec/30_encoding.md R76). -/
def classFSelectors : List Byte :=
  [0x07, 0x0A, 0x15, 0x18, 0x1E, 0x29, 0x33, 0x55, 0x65]

/-- The selector of `LD F10, Vx`, when given, is none of the nine (R7; 92_eei_decisions.md D16). -/
def Config.selectorOk (c : Config) : Bool :=
  match c.encLdF10 with
  | none => true
  | some kk => !classFSelectors.contains kk

/-- The platform image fits below the load origin, 0x000 to 0x1FF (R7 `P_PRELOAD`). -/
def Config.preloadOk (c : Config) : Bool :=
  decide (c.preload.length ≤ 0x200)

/-- The parameters are admissible. -/
def Config.wf (c : Config) : Bool :=
  c.selectorOk && c.preloadOk

/-- A program image fits between the origin and the end of memory: at most `MAX_IMAGE = 3584` bytes
(spec/20_memory.md R63; spec/60_exceptions.md R217). -/
def imageOk (image : List Byte) : Bool :=
  decide (image.length ≤ 3584)

end Sys2Proof
end

