-- ==== Sys2Proof/Machine/HostPort.lean ====
section
/-! DEFINITION. The host's moves and reads, between steps (spec/60_exceptions.md R213; spec/20_memory.md R62;
spec/70_reset_and_hazards.md R230 to R232). The step request is `step`. -/

namespace Sys2Proof.Machine

/-- `reset` (R230): every piece of state to its reset value, memory and `STATUS` included. The parameters are
the machine's own, and the random source does not start over (R34; assumption log 2). -/
def hostReset (s : State) : State := { State.resetOf s.cfg with draws := s.draws }

/-- The platform writes its image from 0x000 up, after reset and before the first step (R7 `P_PRELOAD`;
spec/20_memory.md R64). -/
def hostPreload (s : State) : State := { s with mem := storeBytes s.mem 0 s.cfg.preload }

/-- `load` (spec/20_memory.md R63): the image verbatim at 0x200; an image of more than 3584 bytes is the
loader's error and no machine runs (R217). -/
def hostLoad (image : List Byte) (s : State) : Option State :=
  if imageOk image then some { s with mem := storeBytes s.mem 0x200 image } else none

/-- The host sets the key vector (spec/10_state.md R28; R213 `key[15:0]`). -/
def hostKeys (keys : Keys) (s : State) : State := { s with key := keys }

/-- What must be true before the first step (R232): reset, preload, image, keys. -/
def boot (cfg : Config) (image : List Byte) (keys : Keys) : Option State :=
  (hostLoad image (hostPreload (State.resetOf cfg))).map (hostKeys keys)

/-- `fb_rd` (R213; spec/44_display.md R162): the cell of a linear index, row-major. -/
def fbRead (s : State) (index : Fin 2048) : Bool :=
  Screen.lit s.fb (⟨index.val / 64, by omega⟩, ⟨index.val % 64, by omega⟩)

/-- `tone` (R213; spec/10_state.md R26): the sound timer is positive. -/
def tone (s : State) : Bool := decide (s.st.toNat > 0)

/-- `status` (R213; spec/10_state.md R30). -/
def statusRead (s : State) : Status := s.status

/-- A move of the host between steps, once the run has begun (spec/20_memory.md R62). -/
inductive HostMove where
  | reset
  | keys (k : Keys)
  deriving DecidableEq, Repr

/-- The state after a move of the host. -/
def hostMove (m : HostMove) (s : State) : State :=
  match m with
  | .reset => hostReset s
  | .keys k => hostKeys k s

end Sys2Proof.Machine
end

