-- ==== Sys2Proof/Safety.lean ====
section
/-! DEFINITION. What counts as a safe run, the invariants of the machine, and the words claims use. -/

namespace Sys2Proof.Machine

/-- No fatal fault and no decode error is recorded: a state with `HALT = 1` or `DERR = 1` is never a
successful end (spec/70_reset_and_hazards.md R240; spec/60_exceptions.md R202). -/
def State.clean (s : State) : Prop := s.status.halt = false ∧ s.status.derr = false

/-- The customary end of a program (R240): the next word jumps to its own address. -/
def State.atSelfJump (s : State) : Prop :=
  s.fetchOut = false ∧ s.wordAt s.pc.toNat = 0x1000 ||| s.pc ∧ s.pc.toNat ≤ 0xFFF

/-- The word a step fetches decodes to the instruction `i`. -/
def State.fetches (s : State) (i : Instr) : Prop :=
  s.status.halt = false ∧ s.fetchOut = false ∧
    decode s.cfg.encLdF10 (s.wordAt s.pc.toNat) = .instr i

/-- The record of a fatal fault is the one R200 gives its cause, and is empty while the engine runs. -/
abbrev faultRecordOk (s : State) : Prop :=
  (s.status.halt = false →
    s.status.cause = 0 ∧ s.status.faultPc = 0 ∧ s.status.faultOp = 0 ∧ s.status.faultInfo = 0) ∧
  (s.status.halt = true →
    s.status.faultPc = s.pc ∧
    ((s.status.cause = 2 ∧ s.sp.val = 16 ∧ s.status.faultInfo = 16) ∨
     (s.status.cause = 3 ∧ s.sp.val = 0 ∧ s.status.faultInfo = 0) ∨
     (s.status.cause = 4 ∧ s.cfg.oob = .fault ∧
        s.status.faultInfo.toNat = max s.i.toNat 0x1000) ∨
     (s.status.cause = 5 ∧ s.cfg.oob = .fault ∧ s.pc.toNat + 1 > 0xFFF ∧ s.status.faultOp = 0 ∧
        s.status.faultInfo.toNat = max s.pc.toNat 0x1000) ∨
     (s.status.cause = 6 ∧ s.cfg.keyIndex = .fault ∧
        15 < s.status.faultInfo.toNat ∧ s.status.faultInfo.toNat ≤ 255)))

/-- The capture of the first decode error is empty until there is one (R202). -/
abbrev derrRecordOk (s : State) : Prop :=
  s.status.derr = false → s.status.derrPc = 0 ∧ s.status.derrOp = 0

/-- THE INVARIANT: memory in canonical form, the fault record and the decode-error record as R200 and R202
leave them. -/
abbrev Inv (s : State) : Prop := Memory.wf s.mem ∧ faultRecordOk s ∧ derrRecordOk s

/-- THE RANGE OF `pc` under `P_OOB = fault` (spec/10_state.md R23): at most 0x10FE between steps, and every
live stack entry at most 0x1000. -/
abbrev PcInv (s : State) : Prop :=
  s.pc.toNat ≤ 0x10FE ∧ ∀ j : Fin 16, j.val < s.sp.val → (s.stk[j]).toNat ≤ 0x1000

/-- `DRW Vx, Vy, n` aims at the cell `p` (spec/44_display.md R161): some set bit of some sprite row falls on
it, under the parameter `P_DRAW_EDGE`. -/
def spriteHits (s : State) (x y : Reg) (n : Nibble) (p : Pixel) : Prop :=
  ∃ r c : Nat, r < n.toNat ∧ c < 8 ∧ (s.mem.read ((s.i.toNat + r) % 4096)).getLsbD (7 - c) = true ∧
    match s.cfg.drawEdge with
    | .wrap => p.1.val = ((s.reg y).toNat % 32 + r) % 32 ∧ p.2.val = ((s.reg x).toNat % 64 + c) % 64
    | .clip => p.1.val = (s.reg y).toNat % 32 + r ∧ p.2.val = (s.reg x).toNat % 64 + c

/-- An access to `n` bytes from `I` upward passes the bounds rule (spec/20_memory.md R55). -/
def State.inRange (s : State) (n : Nat) : Prop :=
  s.cfg.oob = .fault → n = 0 ∨ s.i.toNat + n - 1 ≤ 0xFFF

/-- The number of bytes a memory instruction accesses from `I` upward (R205); 0 for every other. -/
def dataLength : Instr → Nat
  | .drw _ _ n => n.toNat
  | .ldB _ => 3
  | .storeRegs x => x.toNat + 1
  | .loadRegs x => x.toNat + 1
  | _ => 0

/-- The word of `s` at address `a`, big-endian, spelled over memory (spec/20_memory.md R52). -/
def State.bigEndian (s : State) (a : Nat) : Word16 :=
  s.mem.read (a % 4096) ++ s.mem.read ((a + 1) % 4096)

end Sys2Proof.Machine
end

