-- ==== Sys2Proof/Certificates/Slice0/Obligations.lean ====
section
/-! DEFINITION. The statements for the provers, each from the numbered rules of spec/. A frame is written as an
equation of states: `{ t with pc := s.pc } = s` says that `t` is `s` in every field but `pc`. The encoding clause of
an instruction's statement gives the decoding of every word of its row. -/

open Sys2Proof Sys2Proof.Machine

/-! ## Encoding (spec/30_encoding.md) -/

/-- Decoding the encoder's word of any instruction gives it back, every operand at every value, whatever
`P_ENC_LDF10` is (R71 to R74). -/
def Obligations.DecodeOfEncodeIsIdentity : Prop :=
  ∀ (k : Option Byte) (i : Instr), decode k (encode i) = .instr i

/-- A recognized word is the encoder's word of what it decodes to, but for the ignored second nibble of `CLS` and
`RET` (R75): no other bit of a word is dropped by the decoder. -/
def Obligations.DecodeDropsOnlyIgnoredBits : Prop :=
  ∀ (k : Option Byte) (op : Word16) (i : Instr), decode k op = .instr i →
    encode i = op &&& (if i = .cls ∨ i = .ret then 0xF0FF else 0xFFFF)

/-- R74: a word selects a row of the opcode map iff its masked bits equal the row's match. -/
def Obligations.WordSelectsRowByMaskAndMatch : Prop :=
  ∀ (k : Option Byte) (op : Word16) (i : Instr),
    (op &&& rowMask i = rowMatch i) ↔
      ∃ j : Instr, decode k op = .instr j ∧ rowMask j = rowMask i ∧ rowMatch j = rowMatch i

/-- R76's table: under the default parameters exactly these words are unrecognized. -/
def Obligations.UnrecognizedWordsAreExactlyThese : Prop :=
  ∀ op : Word16, decode none op = .unrecognized op ↔
    (fieldClass op = 0x0 ∧ fieldNN op ≠ 0xE0 ∧ fieldNN op ≠ 0xEE) ∨
    (fieldClass op = 0x5 ∧ fieldN op ≠ 0) ∨
    (fieldClass op = 0x8 ∧ 8 ≤ (fieldN op).toNat ∧ fieldN op ≠ 0xE) ∨
    fieldClass op = 0x9 ∨
    (fieldClass op = 0xE ∧ fieldNN op ≠ 0x9E ∧ fieldNN op ≠ 0xA1) ∨
    (fieldClass op = 0xF ∧ fieldNN op ∉ classFSelectors)

/-- Words of spec/95_test_vectors.md section 2.8, decoded through the bytes as memory holds them. -/
def Obligations.ListedWordsDecodeAsListed : Prop :=
  decodeBytes none 0x0F 0xE0 = .instr .cls ∧
  decodeBytes none 0x03 0xEE = .instr .ret ∧
  decodeBytes none 0x1F 0xFF = .instr (.jp 0xFFF) ∧
  decodeBytes none 0x3F 0xFF = .instr (.seByte 0xF 0xFF) ∧
  decodeBytes none 0x5F 0xF0 = .instr (.seReg 0xF 0xF) ∧
  decodeBytes none 0x50 0x01 = .unrecognized 0x5001 ∧
  decodeBytes none 0x8F 0xF7 = .instr (.subnReg 0xF 0xF) ∧
  decodeBytes none 0x80 0x0E = .instr (.shl 0x0 0x0) ∧
  decodeBytes none 0x90 0x00 = .unrecognized 0x9000 ∧
  decodeBytes none 0xDF 0xFF = .instr (.drw 0xF 0xF 0xF) ∧
  decodeBytes none 0xEF 0xA1 = .instr (.sknp 0xF) ∧
  decodeBytes none 0xFF 0x65 = .instr (.loadRegs 0xF) ∧
  decodeBytes none 0xF0 0x75 = .unrecognized 0xF075

/-- R143: with `P_ENC_LDF10 = none` no word decodes to `LD F10, Vx`; with `some kk`, `kk` none of the nine
selectors, `FXkk` does, and a step that fetches it sets `I` to ten times `V[X]` (no masking, no flag, no fault). -/
def Obligations.LdF10OnlyWhereItsSelectorIsGiven : Prop :=
  (∀ (op : Word16) (x : Reg), decode none op ≠ .ldF10 x) ∧
  ∀ (s : State) (kk : Byte) (x : Reg), s.cfg.encLdF10 = some kk → kk ∉ classFSelectors →
    decode s.cfg.encLdF10 (0xF#4 ++ x ++ kk) = .ldF10 x ∧
    (s.status.halt = false → s.fetchOut = false → s.bigEndian s.pc.toNat = 0xF#4 ++ x ++ kk →
      ∃ t, step s = .next t ∧ t.i.toNat = 10 * (s.reg x).toNat ∧ t.pc = s.pc + 2 ∧
        t.dt.toNat = s.dt.toNat - 1 ∧ t.st.toNat = s.st.toNat - 1 ∧
        { t with i := s.i, pc := s.pc, dt := s.dt, st := s.st, draws := s.draws } = s)

/-! ## Control flow (spec/41_control_flow.md) -/

/-- R100: `RET` pops an entry into `pc` and leaves it in the stack; with `SP = 0` it is a `StackUnderflow`. -/
def Obligations.RetPopsReturnAddress : Prop :=
  ∀ s : State,
    (∀ x : Reg, decode s.cfg.encLdF10 (0x0#4 ++ x ++ 0xEE#8) = .instr .ret) ∧
    (∀ k : Fin 16, s.sp.val = k.val + 1 →
      ∃ t, exec .ret s = .next t ∧ t.sp.val = k.val ∧ t.pc = s.stk[k] ∧
        { t with sp := s.sp, pc := s.pc } = s) ∧
    (s.sp.val = 0 → exec .ret s = .next (takeFault .stackUnderflow 0 s))

/-- R101: `JP addr`. -/
def Obligations.JpSetsPc : Prop :=
  ∀ (s : State) (nnn : Addr12),
    decode s.cfg.encLdF10 (0x1#4 ++ nnn) = .instr (.jp nnn) ∧
    ∃ t, exec (.jp nnn) s = .next t ∧ t.pc.toNat = nnn.toNat ∧ { t with pc := s.pc } = s

/-- R102: `CALL addr` pushes the address of the instruction after it; with `SP = 16` it is a
`StackOverflow`. -/
def Obligations.CallPushesReturnAddress : Prop :=
  ∀ (s : State) (nnn : Addr12),
    decode s.cfg.encLdF10 (0x2#4 ++ nnn) = .instr (.call nnn) ∧
    (∀ k : Fin 16, s.sp.val = k.val →
      ∃ t, exec (.call nnn) s = .next t ∧ t.pc.toNat = nnn.toNat ∧ t.sp.val = k.val + 1 ∧
        t.stk[k] = s.pc + 2 ∧ (∀ j : Fin 16, j ≠ k → t.stk[j] = s.stk[j]) ∧
        { t with pc := s.pc, sp := s.sp, stk := s.stk } = s) ∧
    (s.sp.val = 16 → exec (.call nnn) s = .next (takeFault .stackOverflow 16 s))

/-- R103: `SE Vx, byte`. -/
def Obligations.SeByteSkipsIffEqual : Prop :=
  ∀ (s : State) (x : Reg) (nn : Byte),
    decode s.cfg.encLdF10 (0x3#4 ++ x ++ nn) = .instr (.seByte x nn) ∧
    ∃ t, exec (.seByte x nn) s = .next t ∧ { t with pc := s.pc } = s ∧
      (s.reg x = nn → t.pc = s.pc + 4) ∧ (s.reg x ≠ nn → t.pc = s.pc + 2)

/-- R104: `SNE Vx, byte`. -/
def Obligations.SneByteSkipsIffDifferent : Prop :=
  ∀ (s : State) (x : Reg) (nn : Byte),
    decode s.cfg.encLdF10 (0x4#4 ++ x ++ nn) = .instr (.sneByte x nn) ∧
    ∃ t, exec (.sneByte x nn) s = .next t ∧ { t with pc := s.pc } = s ∧
      (s.reg x ≠ nn → t.pc = s.pc + 4) ∧ (s.reg x = nn → t.pc = s.pc + 2)

/-- R105: `SE Vx, Vy`; low nibbles other than 0 are unrecognized. -/
def Obligations.SeRegSkipsIffEqual : Prop :=
  ∀ (s : State) (x y : Reg),
    decode s.cfg.encLdF10 (0x5#4 ++ x ++ y ++ 0x0#4) = .instr (.seReg x y) ∧
    (∀ k : Nibble, k ≠ 0 → decode s.cfg.encLdF10 (0x5#4 ++ x ++ y ++ k) = .unrecognized (0x5#4 ++ x ++ y ++ k)) ∧
    ∃ t, exec (.seReg x y) s = .next t ∧ { t with pc := s.pc } = s ∧
      (s.reg x = s.reg y → t.pc = s.pc + 4) ∧ (s.reg x ≠ s.reg y → t.pc = s.pc + 2)

/-- R106: `JP V0, addr`; the sum is kept in full, not reduced modulo 4096. -/
def Obligations.JpV0AddsOffset : Prop :=
  ∀ (s : State) (nnn : Addr12),
    decode s.cfg.encLdF10 (0xB#4 ++ nnn) = .instr (.jpV0 nnn) ∧
    ∃ t, exec (.jpV0 nnn) s = .next t ∧ t.pc.toNat = nnn.toNat + (s.reg 0).toNat ∧ { t with pc := s.pc } = s

/-- R108: a `RET` executed with the `SP` and the live stack entries the `CALL` left, anything else being as it may
(balanced calls and returns in between write only entries above them), returns to `P + 2` with the `SP` of before the
call. -/
def Obligations.CallThenReturnResumesAfterCall : Prop :=
  ∀ (s t u : State) (nnn : Addr12), s.sp.val < 16 → exec (.call nnn) s = .next t →
    u.sp = t.sp → (∀ j : Fin 16, j.val < t.sp.val → u.stk[j] = t.stk[j]) →
    ∃ w, exec .ret u = .next w ∧ w.pc = s.pc + 2 ∧ w.sp = s.sp

/-! ## Register load, arithmetic, logic, random (spec/42_alu.md) -/

/-- R120: `LD Vx, byte`. -/
def Obligations.LdByteSetsRegister : Prop :=
  ∀ (s : State) (x : Reg) (nn : Byte),
    decode s.cfg.encLdF10 (0x6#4 ++ x ++ nn) = .instr (.ldByte x nn) ∧
    ∃ t, exec (.ldByte x nn) s = .next t ∧ t.reg x = nn ∧ (∀ j, j ≠ x → t.reg j = s.reg j) ∧
      t.pc = s.pc + 2 ∧ { t with v := s.v, pc := s.pc } = s

/-- R121: `ADD Vx, byte`, modulo 256, `VF` untouched unless it is the destination. -/
def Obligations.AddByteWrapsWithoutFlag : Prop :=
  ∀ (s : State) (x : Reg) (nn : Byte),
    decode s.cfg.encLdF10 (0x7#4 ++ x ++ nn) = .instr (.addByte x nn) ∧
    ∃ t, exec (.addByte x nn) s = .next t ∧ (t.reg x).toNat = ((s.reg x).toNat + nn.toNat) % 256 ∧
      (∀ j, j ≠ x → t.reg j = s.reg j) ∧ t.pc = s.pc + 2 ∧ { t with v := s.v, pc := s.pc } = s

/-- R122: `LD Vx, Vy`. -/
def Obligations.LdRegCopies : Prop :=
  ∀ (s : State) (x y : Reg),
    decode s.cfg.encLdF10 (0x8#4 ++ x ++ y ++ 0x0#4) = .instr (.ldReg x y) ∧
    ∃ t, exec (.ldReg x y) s = .next t ∧ t.reg x = s.reg y ∧ (∀ j, j ≠ x → t.reg j = s.reg j) ∧
      t.pc = s.pc + 2 ∧ { t with v := s.v, pc := s.pc } = s

/-- R123: `OR Vx, Vy`, bit by bit; `VF` is not written. -/
def Obligations.OrCombinesBits : Prop :=
  ∀ (s : State) (x y : Reg),
    decode s.cfg.encLdF10 (0x8#4 ++ x ++ y ++ 0x1#4) = .instr (.orReg x y) ∧
    ∃ t, exec (.orReg x y) s = .next t ∧
      (∀ b : Fin 8, (t.reg x).getLsbD b = ((s.reg x).getLsbD b || (s.reg y).getLsbD b)) ∧
      (∀ j, j ≠ x → t.reg j = s.reg j) ∧ t.pc = s.pc + 2 ∧ { t with v := s.v, pc := s.pc } = s

/-- R124: `AND Vx, Vy`, bit by bit; `VF` is not written. -/
def Obligations.AndCombinesBits : Prop :=
  ∀ (s : State) (x y : Reg),
    decode s.cfg.encLdF10 (0x8#4 ++ x ++ y ++ 0x2#4) = .instr (.andReg x y) ∧
    ∃ t, exec (.andReg x y) s = .next t ∧
      (∀ b : Fin 8, (t.reg x).getLsbD b = ((s.reg x).getLsbD b && (s.reg y).getLsbD b)) ∧
      (∀ j, j ≠ x → t.reg j = s.reg j) ∧ t.pc = s.pc + 2 ∧ { t with v := s.v, pc := s.pc } = s

/-- R125: `XOR Vx, Vy`, bit by bit; `VF` is not written. -/
def Obligations.XorCombinesBits : Prop :=
  ∀ (s : State) (x y : Reg),
    decode s.cfg.encLdF10 (0x8#4 ++ x ++ y ++ 0x3#4) = .instr (.xorReg x y) ∧
    ∃ t, exec (.xorReg x y) s = .next t ∧
      (∀ b : Fin 8, (t.reg x).getLsbD b = ((s.reg x).getLsbD b ^^ (s.reg y).getLsbD b)) ∧
      (∀ j, j ≠ x → t.reg j = s.reg j) ∧ t.pc = s.pc + 2 ∧ { t with v := s.v, pc := s.pc } = s

/-- R126 with R133: `ADD Vx, Vy`. The sum modulo 256, `VF` 1 iff the sum exceeds 255; at `X = 15` the flag
survives under `flag_last` and the result under `flag_first`. -/
def Obligations.AddRegSetsSumAndCarry : Prop :=
  ∀ (s : State) (x y : Reg),
    decode s.cfg.encLdF10 (0x8#4 ++ x ++ y ++ 0x4#4) = .instr (.addReg x y) ∧
    ∃ t, exec (.addReg x y) s = .next t ∧
      ((x ≠ 15 ∨ s.cfg.vfOrder = .flagFirst) →
        (t.reg x).toNat = ((s.reg x).toNat + (s.reg y).toNat) % 256) ∧
      ((x ≠ 15 ∨ s.cfg.vfOrder = .flagLast) →
        t.reg 15 = if (s.reg x).toNat + (s.reg y).toNat > 255 then 1 else 0) ∧
      (∀ j, j ≠ x → j ≠ 15 → t.reg j = s.reg j) ∧ t.pc = s.pc + 2 ∧ { t with v := s.v, pc := s.pc } = s

/-- R127 with R133: `SUB Vx, Vy`. `VF` 1 iff `V[X] ≥ V[Y]`. -/
def Obligations.SubRegSetsDifferenceAndNoBorrow : Prop :=
  ∀ (s : State) (x y : Reg),
    decode s.cfg.encLdF10 (0x8#4 ++ x ++ y ++ 0x5#4) = .instr (.subReg x y) ∧
    ∃ t, exec (.subReg x y) s = .next t ∧
      ((x ≠ 15 ∨ s.cfg.vfOrder = .flagFirst) →
        (t.reg x).toNat = ((s.reg x).toNat + 256 - (s.reg y).toNat) % 256) ∧
      ((x ≠ 15 ∨ s.cfg.vfOrder = .flagLast) →
        t.reg 15 = if (s.reg x).toNat ≥ (s.reg y).toNat then 1 else 0) ∧
      (∀ j, j ≠ x → j ≠ 15 → t.reg j = s.reg j) ∧ t.pc = s.pc + 2 ∧ { t with v := s.v, pc := s.pc } = s

/-- R128 with R133: `SHR Vx {, Vy}`. The operand is `V[X]`, or `V[Y]` under `P_SHIFT_SRC = Vy`; `VF` is its bit 0. -/
def Obligations.ShrHalvesAndFlagsBit0 : Prop :=
  ∀ (s : State) (x y : Reg) (o : Byte),
    (s.cfg.shiftSrc = .vx → o = s.reg x) → (s.cfg.shiftSrc = .vy → o = s.reg y) →
    decode s.cfg.encLdF10 (0x8#4 ++ x ++ y ++ 0x6#4) = .instr (.shr x y) ∧
    ∃ t, exec (.shr x y) s = .next t ∧
      ((x ≠ 15 ∨ s.cfg.vfOrder = .flagFirst) → (t.reg x).toNat = o.toNat / 2) ∧
      ((x ≠ 15 ∨ s.cfg.vfOrder = .flagLast) → (t.reg 15).toNat = o.toNat % 2) ∧
      (∀ j, j ≠ x → j ≠ 15 → t.reg j = s.reg j) ∧ t.pc = s.pc + 2 ∧ { t with v := s.v, pc := s.pc } = s

/-- R129 with R133: `SUBN Vx, Vy`. `VF` 1 iff `V[Y] ≥ V[X]`. -/
def Obligations.SubnRegSetsDifferenceAndNoBorrow : Prop :=
  ∀ (s : State) (x y : Reg),
    decode s.cfg.encLdF10 (0x8#4 ++ x ++ y ++ 0x7#4) = .instr (.subnReg x y) ∧
    ∃ t, exec (.subnReg x y) s = .next t ∧
      ((x ≠ 15 ∨ s.cfg.vfOrder = .flagFirst) →
        (t.reg x).toNat = ((s.reg y).toNat + 256 - (s.reg x).toNat) % 256) ∧
      ((x ≠ 15 ∨ s.cfg.vfOrder = .flagLast) →
        t.reg 15 = if (s.reg y).toNat ≥ (s.reg x).toNat then 1 else 0) ∧
      (∀ j, j ≠ x → j ≠ 15 → t.reg j = s.reg j) ∧ t.pc = s.pc + 2 ∧ { t with v := s.v, pc := s.pc } = s

/-- R130 with R133: `SHL Vx {, Vy}`. `VF` is bit 7 of the operand. -/
def Obligations.ShlDoublesAndFlagsBit7 : Prop :=
  ∀ (s : State) (x y : Reg) (o : Byte),
    (s.cfg.shiftSrc = .vx → o = s.reg x) → (s.cfg.shiftSrc = .vy → o = s.reg y) →
    decode s.cfg.encLdF10 (0x8#4 ++ x ++ y ++ 0xE#4) = .instr (.shl x y) ∧
    ∃ t, exec (.shl x y) s = .next t ∧
      ((x ≠ 15 ∨ s.cfg.vfOrder = .flagFirst) → (t.reg x).toNat = o.toNat * 2 % 256) ∧
      ((x ≠ 15 ∨ s.cfg.vfOrder = .flagLast) → (t.reg 15).toNat = o.toNat / 128) ∧
      (∀ j, j ≠ x → j ≠ 15 → t.reg j = s.reg j) ∧ t.pc = s.pc + 2 ∧ { t with v := s.v, pc := s.pc } = s

/-- From R131 and R34: `RND Vx, byte`. The result is the step's random byte and `NN`; it never has a bit that `NN`
lacks. That the byte is `rndByte`, the free value of the step, is the MODEL's choice (assumption log 2, DESIGN CHOICE):
the clause only names the free value and holds for every value of it. The last clause, that a harness's byte takes its
place, is the MODEL's choice of how a harness is addressed (R7 names the harness; assumption log 3, DESIGN CHOICE);
R131 speaks of no harness. -/
def Obligations.RndMasksRandomByte : Prop :=
  ∀ (s : State) (x : Reg) (nn : Byte),
    decode s.cfg.encLdF10 (0xC#4 ++ x ++ nn) = .instr (.rnd x nn) ∧
    (∃ t, exec (.rnd x nn) s = .next t ∧ t.reg x = rndByte s &&& nn ∧
      (∀ b : Fin 8, (t.reg x).getLsbD b = true → nn.getLsbD b = true) ∧
      (∀ j, j ≠ x → t.reg j = s.reg j) ∧ t.pc = s.pc + 2 ∧ { t with v := s.v, pc := s.pc } = s) ∧
    ∀ r : Byte, ∃ t,
      exec (.rnd x nn)
        { s with cfg := { s.cfg with rnd := .harness (List.replicate (s.draws + 1) r) } } = .next t ∧
      t.reg x = r &&& nn

/-! ## Index register, BCD, block transfer (spec/43_index_memory.md) -/

/-- R140: `LD I, addr`. -/
def Obligations.LdISetsIndex : Prop :=
  ∀ (s : State) (nnn : Addr12),
    decode s.cfg.encLdF10 (0xA#4 ++ nnn) = .instr (.ldI nnn) ∧
    ∃ t, exec (.ldI nnn) s = .next t ∧ t.i.toNat = nnn.toNat ∧ t.pc = s.pc + 2 ∧
      { t with i := s.i, pc := s.pc } = s

/-- R141: `ADD I, Vx`, modulo 65536, no flag. -/
def Obligations.AddIAddsRegister : Prop :=
  ∀ (s : State) (x : Reg),
    decode s.cfg.encLdF10 (0xF#4 ++ x ++ 0x1E#8) = .instr (.addI x) ∧
    ∃ t, exec (.addI x) s = .next t ∧ t.i.toNat = (s.i.toNat + (s.reg x).toNat) % 65536 ∧ t.pc = s.pc + 2 ∧
      { t with i := s.i, pc := s.pc } = s

/-- R142: `LD F, Vx`, the whole register value times five. -/
def Obligations.LdFMultipliesByFive : Prop :=
  ∀ (s : State) (x : Reg),
    decode s.cfg.encLdF10 (0xF#4 ++ x ++ 0x29#8) = .instr (.ldF x) ∧
    ∃ t, exec (.ldF x) s = .next t ∧ t.i.toNat = (s.reg x).toNat * 5 ∧ t.pc = s.pc + 2 ∧
      { t with i := s.i, pc := s.pc } = s

/-- R144: `LD B, Vx` stores the three decimal digits at `I`, `I + 1`, `I + 2` and nothing else, or is a `MemBounds`
with no digit stored. Memory is in canonical form, which is part of the invariant `Inv`. -/
def Obligations.LdBStoresDigits : Prop :=
  ∀ (s : State) (x : Reg),
    decode s.cfg.encLdF10 (0xF#4 ++ x ++ 0x33#8) = .instr (.ldB x) ∧
    (Memory.wf s.mem → (s.cfg.oob = .fault → s.i.toNat + 2 ≤ 0xFFF) →
      ∃ t, exec (.ldB x) s = .next t ∧
        (t.mem.read (s.i.toNat % 4096)).toNat = (s.reg x).toNat / 100 ∧
        (t.mem.read ((s.i.toNat + 1) % 4096)).toNat = (s.reg x).toNat / 10 % 10 ∧
        (t.mem.read ((s.i.toNat + 2) % 4096)).toNat = (s.reg x).toNat % 10 ∧
        (∀ a, (∀ k, k ≤ 2 → a ≠ (s.i.toNat + k) % 4096) → t.mem.read a = s.mem.read a) ∧
        t.pc = s.pc + 2 ∧ { t with mem := s.mem, pc := s.pc } = s) ∧
    (s.cfg.oob = .fault → s.i.toNat + 2 > 0xFFF →
      exec (.ldB x) s = .next (takeFault .memBounds (max s.i.toNat 0x1000) s))

/-- R145: `LD [I], Vx` stores `V[0]` to `V[X]` at `I` to `I + X` and nothing else, or is a `MemBounds` with nothing
stored; `I` is unchanged. -/
def Obligations.StoreRegsStoresBlock : Prop :=
  ∀ (s : State) (x : Reg),
    decode s.cfg.encLdF10 (0xF#4 ++ x ++ 0x55#8) = .instr (.storeRegs x) ∧
    (Memory.wf s.mem → (s.cfg.oob = .fault → s.i.toNat + x.toNat ≤ 0xFFF) →
      ∃ t, exec (.storeRegs x) s = .next t ∧
        (∀ k : Reg, k.toNat ≤ x.toNat → t.mem.read ((s.i.toNat + k.toNat) % 4096) = s.reg k) ∧
        (∀ a, (∀ k, k ≤ x.toNat → a ≠ (s.i.toNat + k) % 4096) → t.mem.read a = s.mem.read a) ∧
        t.pc = s.pc + 2 ∧ { t with mem := s.mem, pc := s.pc } = s) ∧
    (s.cfg.oob = .fault → s.i.toNat + x.toNat > 0xFFF →
      exec (.storeRegs x) s = .next (takeFault .memBounds (max s.i.toNat 0x1000) s))

/-- R146: `LD Vx, [I]` loads `V[0]` to `V[X]` from `I` to `I + X`, leaves the registers above alone, or is a
`MemBounds` with nothing loaded; `I` and memory are unchanged. -/
def Obligations.LoadRegsLoadsBlock : Prop :=
  ∀ (s : State) (x : Reg),
    decode s.cfg.encLdF10 (0xF#4 ++ x ++ 0x65#8) = .instr (.loadRegs x) ∧
    ((s.cfg.oob = .fault → s.i.toNat + x.toNat ≤ 0xFFF) →
      ∃ t, exec (.loadRegs x) s = .next t ∧
        (∀ k : Reg, k.toNat ≤ x.toNat → t.reg k = s.mem.read ((s.i.toNat + k.toNat) % 4096)) ∧
        (∀ k : Reg, x.toNat < k.toNat → t.reg k = s.reg k) ∧
        t.pc = s.pc + 2 ∧ { t with v := s.v, pc := s.pc } = s) ∧
    (s.cfg.oob = .fault → s.i.toNat + x.toNat > 0xFFF →
      exec (.loadRegs x) s = .next (takeFault .memBounds (max s.i.toNat 0x1000) s))

/-! ## Display (spec/44_display.md) -/

/-- R160: `CLS` zeroes every cell, whatever was there; `VF` is not written. -/
def Obligations.ClsClearsEveryCell : Prop :=
  ∀ s : State,
    (∀ x : Reg, decode s.cfg.encLdF10 (0x0#4 ++ x ++ 0xE0#8) = .instr .cls) ∧
    ∃ t, exec .cls s = .next t ∧ (∀ p : Pixel, t.fb.lit p = false) ∧ t.pc = s.pc + 2 ∧
      { t with fb := s.fb, pc := s.pc } = s

/-- R161: `DRW Vx, Vy, nibble` flips exactly the cells the sprite's set bits fall on (`spriteHits`, both settings of
`P_DRAW_EDGE`), writes to `VF` whether one of them was lit, and changes nothing else; or it is a `MemBounds` with
no cell changed. -/
def Obligations.DrwFlipsHitCellsAndFlagsCollision : Prop :=
  ∀ (s : State) (x y : Reg) (n : Nibble),
    decode s.cfg.encLdF10 (0xD#4 ++ x ++ y ++ n) = .instr (.drw x y n) ∧
    ((s.cfg.oob = .fault → n = 0 ∨ s.i.toNat + n.toNat - 1 ≤ 0xFFF) →
      ∃ t, exec (.drw x y n) s = .next t ∧
        (∀ p, spriteHits s x y n p → t.fb.lit p = !s.fb.lit p) ∧
        (∀ p, ¬ spriteHits s x y n p → t.fb.lit p = s.fb.lit p) ∧
        ((∃ p, spriteHits s x y n p ∧ s.fb.lit p = true) → t.reg 15 = 1) ∧
        ((¬ ∃ p, spriteHits s x y n p ∧ s.fb.lit p = true) → t.reg 15 = 0) ∧
        (∀ j, j ≠ 15 → t.reg j = s.reg j) ∧ t.pc = s.pc + 2 ∧
        { t with fb := s.fb, v := s.v, pc := s.pc } = s) ∧
    (s.cfg.oob = .fault → n ≠ 0 → s.i.toNat + n.toNat - 1 > 0xFFF →
      exec (.drw x y n) s = .next (takeFault .memBounds (max s.i.toNat 0x1000) s))

/-- From R161's pseudocode: a second draw of the same sprite at the same place, on the framebuffer the first one left,
restores the framebuffer, and sets `VF` to 1 iff the first draw lit some cell, that is iff some cell it hit was unlit
before. The two clauses on `VF` are the MODEL's reading (assumption log 12, DEDUCED): the testable property R161 quotes
says `VF = 1` in every case, which its pseudocode does not give; of that property this states only the restoring
half. -/
def Obligations.DrawTwiceRestoresFramebuffer : Prop :=
  ∀ (s t u : State) (x y : Reg) (n : Nibble), s.inRange n.toNat → exec (.drw x y n) s = .next t →
    u.fb = t.fb → u.mem = s.mem → u.i = s.i → u.cfg = s.cfg → u.reg x = s.reg x → u.reg y = s.reg y →
    ∃ w, exec (.drw x y n) u = .next w ∧ w.fb = s.fb ∧
      ((∃ p, spriteHits s x y n p ∧ s.fb.lit p = false) → w.reg 15 = 1) ∧
      ((¬ ∃ p, spriteHits s x y n p ∧ s.fb.lit p = false) → w.reg 15 = 0)

/-- R161's testable property read literally: the second draw of any sprite with a hit cell sets `VF` to 1. EXPECTED TO
FAIL: where every hit cell was lit before the first draw, the first draw turns them all off and the second turns
none off (assumption log 12). -/
def Obligations.SecondDrawAlwaysCollides : Prop :=
  ∀ (s t u : State) (x y : Reg) (n : Nibble), s.cfg.drawEdge = .wrap → s.inRange n.toNat →
    (∃ p, spriteHits s x y n p) → exec (.drw x y n) s = .next t →
    u.fb = t.fb → u.mem = s.mem → u.i = s.i → u.cfg = s.cfg → u.reg x = s.reg x → u.reg y = s.reg y →
    ∃ w, exec (.drw x y n) u = .next w ∧ w.reg 15 = 1

/-! ## Keys and timers (spec/45_timers_keys.md) -/

/-- R170: `SKP Vx` with `KeyCell`. -/
def Obligations.SkpSkipsIffKeyPressed : Prop :=
  ∀ (s : State) (x : Reg),
    decode s.cfg.encLdF10 (0xE#4 ++ x ++ 0x9E#8) = .instr (.skp x) ∧
    (∀ k : Fin 16, ((s.reg x).toNat = k.val ∨
        (s.cfg.keyIndex = .mask4 ∧ (s.reg x).toNat > 15 ∧ (s.reg x).toNat % 16 = k.val)) →
      ∃ t, exec (.skp x) s = .next t ∧ { t with pc := s.pc } = s ∧
        (s.key[k] = true → t.pc = s.pc + 4) ∧ (s.key[k] = false → t.pc = s.pc + 2)) ∧
    (s.cfg.keyIndex = .fault → (s.reg x).toNat > 15 →
      exec (.skp x) s = .next (takeFault .keyIndex (s.reg x).toNat s))

/-- R171: `SKNP Vx` with `KeyCell`. -/
def Obligations.SknpSkipsIffKeyNotPressed : Prop :=
  ∀ (s : State) (x : Reg),
    decode s.cfg.encLdF10 (0xE#4 ++ x ++ 0xA1#8) = .instr (.sknp x) ∧
    (∀ k : Fin 16, ((s.reg x).toNat = k.val ∨
        (s.cfg.keyIndex = .mask4 ∧ (s.reg x).toNat > 15 ∧ (s.reg x).toNat % 16 = k.val)) →
      ∃ t, exec (.sknp x) s = .next t ∧ { t with pc := s.pc } = s ∧
        (s.key[k] = false → t.pc = s.pc + 4) ∧ (s.key[k] = true → t.pc = s.pc + 2)) ∧
    (s.cfg.keyIndex = .fault → (s.reg x).toNat > 15 →
      exec (.sknp x) s = .next (takeFault .keyIndex (s.reg x).toNat s))

/-- R172: `LD Vx, DT`; the step's own decrement comes after the read. -/
def Obligations.LdVxDtReadsDelayTimer : Prop :=
  ∀ (s : State) (x : Reg),
    decode s.cfg.encLdF10 (0xF#4 ++ x ++ 0x07#8) = .instr (.ldVxDt x) ∧
    (∃ t, exec (.ldVxDt x) s = .next t ∧ t.reg x = s.dt ∧ (∀ j, j ≠ x → t.reg j = s.reg j) ∧
      t.pc = s.pc + 2 ∧ { t with v := s.v, pc := s.pc } = s) ∧
    (s.fetches (.ldVxDt x) → ∃ u, step s = .next u ∧ u.reg x = s.dt ∧ u.dt.toNat = s.dt.toNat - 1)

/-- R173: `LD Vx, K` takes the least pressed key, or leaves everything, `pc` at the fetch address included; a step
spent waiting is complete and moves only the timers (and the model's own `draws`). -/
def Obligations.LdVxKTakesLowestKeyOrWaits : Prop :=
  ∀ (s : State) (x : Reg),
    decode s.cfg.encLdF10 (0xF#4 ++ x ++ 0x0A#8) = .instr (.ldVxK x) ∧
    (∀ k : Fin 16, s.key[k] = true → (∀ j : Fin 16, j < k → s.key[j] = false) →
      ∃ t, exec (.ldVxK x) s = .next t ∧ (t.reg x).toNat = k.val ∧ (∀ j, j ≠ x → t.reg j = s.reg j) ∧
        t.pc = s.pc + 2 ∧ { t with v := s.v, pc := s.pc } = s) ∧
    ((∀ j : Fin 16, s.key[j] = false) → exec (.ldVxK x) s = .next s) ∧
    ((∀ j : Fin 16, s.key[j] = false) → s.fetches (.ldVxK x) →
      ∃ u, step s = .next u ∧ u.dt.toNat = s.dt.toNat - 1 ∧ u.st.toNat = s.st.toNat - 1 ∧
        { u with dt := s.dt, st := s.st, draws := s.draws } = s)

/-- R174: `LD DT, Vx`; the step that runs it ends one lower. -/
def Obligations.LdDtVxSetsDelayTimer : Prop :=
  ∀ (s : State) (x : Reg),
    decode s.cfg.encLdF10 (0xF#4 ++ x ++ 0x15#8) = .instr (.ldDtVx x) ∧
    (∃ t, exec (.ldDtVx x) s = .next t ∧ t.dt = s.reg x ∧ t.pc = s.pc + 2 ∧ { t with dt := s.dt, pc := s.pc } = s) ∧
    (s.fetches (.ldDtVx x) →
      ∃ u, step s = .next u ∧ u.dt.toNat = (s.reg x).toNat - 1 ∧ u.st.toNat = s.st.toNat - 1)

/-- R175: `LD ST, Vx`; the step that runs it ends one lower, so the host hears a tone iff 2 or more was written. -/
def Obligations.LdStVxSetsSoundTimer : Prop :=
  ∀ (s : State) (x : Reg),
    decode s.cfg.encLdF10 (0xF#4 ++ x ++ 0x18#8) = .instr (.ldStVx x) ∧
    (∃ t, exec (.ldStVx x) s = .next t ∧ t.st = s.reg x ∧ t.pc = s.pc + 2 ∧ { t with st := s.st, pc := s.pc } = s) ∧
    (s.fetches (.ldStVx x) →
      ∃ u, step s = .next u ∧ u.st.toNat = (s.reg x).toNat - 1 ∧ u.dt.toNat = s.dt.toNat - 1 ∧
        (tone u = true ↔ 2 ≤ (s.reg x).toNat))

/-! ## The step (spec/40_step_cycle.md) -/

/-- R90, R94: a step that fetches an instruction runs it. `exec` takes the state with `pc` at the fetch address; the
step adds phase 5 to what `exec` answers, unless a fatal fault was raised. -/
def Obligations.StepRunsDecodedInstruction : Prop :=
  ∀ (s t : State) (i : Instr), s.status.halt = false →
    (s.cfg.oob = .fault → s.pc.toNat + 1 ≤ 0xFFF) →
    decode s.cfg.encLdF10 (s.bigEndian s.pc.toNat) = .instr i → exec i s = .next t →
    (t.status.halt = true → step s = .next t) ∧
    (t.status.halt = false →
      step s = .next { t with dt := countDown t.dt, st := countDown t.st, draws := t.draws + 1 })

/-- R97, R209: a halted engine answers a step request with its own state, and of the host's moves only reset clears
`HALT`, and with it all of `STATUS`. -/
def Obligations.HaltedEngineIgnoresStepRequests : Prop :=
  ∀ s : State, s.status.halt = true →
    step s = .next s ∧
    (∀ m : HostMove, (hostMove m s).status.halt = false ↔ m = .reset) ∧
    (hostMove .reset s).status = Status.reset

/-- R91, R201: with `P_OOB = fault` a `pc` of 0xFFF or more is a `FetchBounds`, and nothing but `STATUS` changes; else
the step runs the big-endian word of the bytes at `pc` and `pc + 1`, each taken modulo 4096 (which acts only under
`P_OOB = wrap`). -/
def Obligations.FetchReadsBigEndianWordOrFaults : Prop :=
  ∀ s : State, s.status.halt = false →
    (s.cfg.oob = .fault → s.pc.toNat + 1 > 0xFFF →
      step s = .next { s with
        status := { s.status with
          halt := true, cause := 5, faultPc := s.pc, faultOp := 0,
          faultInfo := BitVec.ofNat 17 (max s.pc.toNat 0x1000) } }) ∧
    (¬ (s.cfg.oob = .fault ∧ s.pc.toNat + 1 > 0xFFF) →
      step s = runDecoded (decode s.cfg.encLdF10 (BitVec.ofNat 16
        ((s.mem.read (s.pc.toNat % 4096)).toNat * 256 + (s.mem.read ((s.pc.toNat + 1) % 4096)).toNat))) s)

/-- R202: an unrecognized word is a completed step that advances `pc`, ticks the timers, records the report, the first
one with its address and word, and changes nothing else. The report is still there after the next step, and of the
host's moves only reset clears it; that it stays in every step is `DerrIsStickyWithFirstCapture`. -/
def Obligations.UnrecognizedWordIsReportedNoOp : Prop :=
  ∀ (s : State) (op : Word16), s.status.halt = false →
    (s.cfg.oob = .fault → s.pc.toNat + 1 ≤ 0xFFF) →
    s.bigEndian s.pc.toNat = op → decode s.cfg.encLdF10 op = .unrecognized op →
    ∃ t, step s = .next t ∧ t.pc = s.pc + 2 ∧
      t.dt.toNat = s.dt.toNat - 1 ∧ t.st.toNat = s.st.toNat - 1 ∧ t.status.derr = true ∧
      (s.status.derr = false → t.status.derrPc = s.pc ∧ t.status.derrOp = op) ∧
      (s.status.derr = true → t.status.derrPc = s.status.derrPc ∧ t.status.derrOp = s.status.derrOp) ∧
      { t.status with derr := s.status.derr, derrPc := s.status.derrPc, derrOp := s.status.derrOp } = s.status ∧
      { t with pc := s.pc, dt := s.dt, st := s.st, draws := s.draws, status := s.status } = s ∧
      (∀ u, step t = .next u → u.status.derr = true) ∧
      (∀ m : HostMove, (hostMove m t).status.derr = false ↔ m = .reset)

/-- R95: both timers count down by 1 in every completed step while positive, after dispatch, whichever instruction
ran; `LD Vx, DT` reads before the decrement; not on a step that faults or finds the engine halted. Nat subtraction is
the floor at 0. -/
def Obligations.TimersCountDownOncePerCompletedStep : Prop :=
  ∀ s t : State, step s = .next t →
    (t.status.halt = true → t.dt = s.dt ∧ t.st = s.st) ∧
    (t.status.halt = false →
      (∀ x, s.fetches (.ldDtVx x) → t.dt.toNat = (s.reg x).toNat - 1) ∧
      ((∀ x, ¬ s.fetches (.ldDtVx x)) → t.dt.toNat = s.dt.toNat - 1) ∧
      (∀ x, s.fetches (.ldStVx x) → t.st.toNat = (s.reg x).toNat - 1) ∧
      ((∀ x, ¬ s.fetches (.ldStVx x)) → t.st.toNat = s.st.toNat - 1) ∧
      (∀ x, s.fetches (.ldVxDt x) → t.reg x = s.dt))

/-- R208, R96, R200: a step that halts the engine commits nothing but `STATUS`, and the record is the one the table of
R200 gives the cause. -/
def Obligations.FatalFaultIsPreciseAndRecorded : Prop :=
  ∀ s t : State, s.status.halt = false → step s = .next t → t.status.halt = true →
    { t with status := s.status } = s ∧
    { t.status with
      halt := s.status.halt, cause := s.status.cause, faultPc := s.status.faultPc,
      faultOp := s.status.faultOp, faultInfo := s.status.faultInfo } = s.status ∧
    t.status.faultPc = s.pc ∧
    (t.status.cause ≠ 5 → t.status.faultOp = s.bigEndian s.pc.toNat) ∧
    ((t.status.cause = 2 ∧ (∃ nnn, s.fetches (.call nnn)) ∧ s.sp.val = 16 ∧ t.status.faultInfo = 16) ∨
     (t.status.cause = 3 ∧ s.fetches .ret ∧ s.sp.val = 0 ∧ t.status.faultInfo = 0) ∨
     (t.status.cause = 4 ∧ s.cfg.oob = .fault ∧
        (∃ i, s.fetches i ∧ 0 < dataLength i ∧ s.i.toNat + dataLength i - 1 > 0xFFF) ∧
        t.status.faultInfo.toNat = max s.i.toNat 0x1000) ∨
     (t.status.cause = 5 ∧ s.cfg.oob = .fault ∧ s.pc.toNat + 1 > 0xFFF ∧ t.status.faultOp = 0 ∧
        t.status.faultInfo.toNat = max s.pc.toNat 0x1000) ∨
     (t.status.cause = 6 ∧ s.cfg.keyIndex = .fault ∧
        (∃ x, (s.fetches (.skp x) ∨ s.fetches (.sknp x)) ∧ (s.reg x).toNat > 15 ∧
          t.status.faultInfo.toNat = (s.reg x).toNat)))

/-- R90: the step is total; in this model it always answers a next state. -/
def Obligations.EveryStepAnswersNextState : Prop :=
  ∀ s : State, ∃ t, step s = .next t

/-! ## Reset and the host (spec/10_state.md R32; spec/70_reset_and_hazards.md) -/

/-- R32, R230: reset, for every setting of the parameters. -/
def Obligations.ResetLeavesListedValues : Prop :=
  ∀ c : Config,
    (∀ x, (State.resetOf c).reg x = 0) ∧ (State.resetOf c).i = 0 ∧ (State.resetOf c).pc = 0x0200 ∧
    (State.resetOf c).sp.val = 0 ∧ (∀ j : Fin 16, (State.resetOf c).stk[j] = 0) ∧
    (State.resetOf c).dt = 0 ∧ (State.resetOf c).st = 0 ∧
    (∀ p : Pixel, (State.resetOf c).fb.lit p = false) ∧ (∀ j : Fin 16, (State.resetOf c).key[j] = false) ∧
    (∀ a, (State.resetOf c).mem.read a = 0) ∧
    (State.resetOf c).status =
      { halt := false, cause := 0, faultPc := 0, faultOp := 0, faultInfo := 0, derr := false, derrPc := 0,
        derrOp := 0 } ∧
    ∀ s : State, { hostReset s with draws := (State.resetOf s.cfg).draws } = State.resetOf s.cfg

/-- R63, R232, R51: the memory a program starts on. -/
def Obligations.BootPlacesImageAtOrigin : Prop :=
  ∀ (c : Config) (image : List Byte) (keys : Keys), c.preload.length ≤ 0x200 →
    (image.length ≤ 3584 →
      ∃ s, boot c image keys = some s ∧
        (∀ j (h : j < image.length), s.mem.read (0x200 + j) = image[j]) ∧
        (∀ j (h : j < c.preload.length), s.mem.read j = c.preload[j]) ∧
        (∀ a, c.preload.length ≤ a → a < 0x200 → s.mem.read a = 0) ∧
        (∀ a, 0x200 + image.length ≤ a → s.mem.read a = 0) ∧
        s.key = keys ∧
        { s with mem := (State.resetOf c).mem, key := (State.resetOf c).key } = State.resetOf c) ∧
    (3584 < image.length → boot c image keys = none)

/-! ## Invariants -/

/-- Every step keeps the invariant: memory in canonical form inside the 4096 bytes, the fault record and the report
record consistent (R50, R200, R202, R208). -/
def Obligations.StepKeepsInvariant : Prop :=
  ∀ s t : State, Inv s → step s = .next t → Inv t

/-- Reset meets the invariant, boot too, and the host's moves keep it. -/
def Obligations.ResetBootAndHostMovesMeetInvariant : Prop :=
  Inv State.reset ∧ PcInv State.reset ∧
  (∀ (c : Config) (image : List Byte) (keys : Keys) (s : State), boot c image keys = some s → Inv s ∧ PcInv s) ∧
  (∀ (m : HostMove) (s : State), Inv s → Inv (hostMove m s)) ∧
  (∀ (m : HostMove) (s : State), PcInv s → PcInv (hostMove m s))

/-- R23: under `P_OOB = fault` no step takes `pc` above 0x10FE, or a live stack entry above 0x1000. -/
def Obligations.StepKeepsPcRange : Prop :=
  ∀ s t : State, s.cfg.oob = .fault → PcInv s → step s = .next t → PcInv t

/-! ## Whole-machine rules -/

/-- R22, R24 to R29, R50: which instructions write which part of the state. -/
def Obligations.EachPartIsWrittenOnlyByItsInstructions : Prop :=
  ∀ (i : Instr) (s t : State), exec i s = .next t →
    t.cfg = s.cfg ∧ t.key = s.key ∧ t.draws = s.draws ∧
    (t.stk ≠ s.stk → ∃ nnn, i = .call nnn) ∧
    (t.sp ≠ s.sp → i = .ret ∨ ∃ nnn, i = .call nnn) ∧
    (t.fb ≠ s.fb → i = .cls ∨ ∃ x y n, i = .drw x y n) ∧
    (t.mem ≠ s.mem → ∃ x, i = .ldB x ∨ i = .storeRegs x) ∧
    (t.i ≠ s.i → (∃ nnn, i = .ldI nnn) ∨ ∃ x, i = .addI x ∨ i = .ldF x) ∧
    (t.dt ≠ s.dt → ∃ x, i = .ldDtVx x) ∧
    (t.st ≠ s.st → ∃ x, i = .ldStVx x) ∧
    t.status.derr = s.status.derr ∧ t.status.derrPc = s.status.derrPc ∧ t.status.derrOp = s.status.derrOp

/-- R21: no instruction but the flag writers changes `VF` unless it names it as a destination, and a flag is 0 or 1. -/
def Obligations.OnlyFlagWritersTouchVf : Prop :=
  ∀ (i : Instr) (s t : State), exec i s = .next t →
    match i with
    | .addReg x _ | .subReg x _ | .shr x _ | .subnReg x _ | .shl x _ =>
        (x ≠ 15 ∨ s.cfg.vfOrder = .flagLast) → t.reg 15 = 0 ∨ t.reg 15 = 1
    | .drw _ _ n => (s.inRange n.toNat → t.reg 15 = 0 ∨ t.reg 15 = 1) ∧ (¬ s.inRange n.toNat → t.reg 15 = s.reg 15)
    | .ldByte x _ | .addByte x _ | .ldReg x _ | .orReg x _ | .andReg x _ | .xorReg x _ | .rnd x _
    | .ldVxDt x | .ldVxK x | .loadRegs x => x ≠ 15 → t.reg 15 = s.reg 15
    | _ => t.reg 15 = s.reg 15

/-- R202, R30: `DERR` is sticky, keeps the first capture, and rises only on an unrecognized word. -/
def Obligations.DerrIsStickyWithFirstCapture : Prop :=
  ∀ s t : State, step s = .next t →
    (s.status.derr = true →
      t.status.derr = true ∧ t.status.derrPc = s.status.derrPc ∧ t.status.derrOp = s.status.derrOp) ∧
    (s.status.derr = false → t.status.derr = true →
      decode s.cfg.encLdF10 (s.bigEndian s.pc.toNat) = .unrecognized (s.bigEndian s.pc.toNat) ∧
      t.status.derrPc = s.pc ∧ t.status.derrOp = s.bigEndian s.pc.toNat)

/-- R60: a store is seen by the very next fetch. After a step that ran `LD [I], Vx`, if the next word lies in the
stored bytes, the next step runs the word the stored registers make. -/
def Obligations.StoreIsSeenByNextFetch : Prop :=
  ∀ (s t : State) (x k l : Reg), Memory.wf s.mem → s.fetches (.storeRegs x) → step s = .next t →
    s.i.toNat + x.toNat ≤ 0xFFF → k.toNat < x.toNat → l.toNat = k.toNat + 1 →
    t.pc.toNat = s.i.toNat + k.toNat →
    t.status.halt = false ∧ t.fetchOut = false ∧
      step t = runDecoded (decode t.cfg.encLdF10 (s.reg k ++ s.reg l)) t

/-- R240: from a self-jump every further step leaves everything unchanged except the timers counting down (and the
model's own index of the random source). -/
def Obligations.SelfJumpOnlyCountsTimersDown : Prop :=
  ∀ s : State, s.status.halt = false → s.atSelfJump →
    ∃ t, step s = .next t ∧ t.dt.toNat = s.dt.toNat - 1 ∧ t.st.toNat = s.st.toNat - 1 ∧
      { t with dt := s.dt, st := s.st, draws := s.draws } = s ∧ t.atSelfJump
end

