-- ==== Sys2Proof/Laws/Decode.lean ====
section
/-! SUPPORT. The fields of a word built from a format are the parts it was built from. -/

namespace Sys2Proof

theorem formatA_class (c : BitVec 4) (a : Addr12) : fieldClass (formatA c a) = c := by
  apply BitVec.eq_of_getLsbD_eq; intro i hi
  simp only [fieldClass, formatA, BitVec.getLsbD_extractLsb', BitVec.getLsbD_append]
  grind

theorem formatA_nnn (c : BitVec 4) (a : Addr12) : fieldNNN (formatA c a) = a := by
  apply BitVec.eq_of_getLsbD_eq; intro i hi
  simp only [fieldNNN, formatA, BitVec.getLsbD_extractLsb', BitVec.getLsbD_append]
  grind

theorem formatI_class (c : BitVec 4) (x : Reg) (n : Byte) : fieldClass (formatI c x n) = c := by
  apply BitVec.eq_of_getLsbD_eq; intro i hi
  simp only [fieldClass, formatI, BitVec.getLsbD_extractLsb', BitVec.getLsbD_append]
  grind

theorem formatI_x (c : BitVec 4) (x : Reg) (n : Byte) : fieldX (formatI c x n) = x := by
  apply BitVec.eq_of_getLsbD_eq; intro i hi
  simp only [fieldX, formatI, BitVec.getLsbD_extractLsb', BitVec.getLsbD_append]
  grind

theorem formatI_nn (c : BitVec 4) (x : Reg) (n : Byte) : fieldNN (formatI c x n) = n := by
  apply BitVec.eq_of_getLsbD_eq; intro i hi
  simp only [fieldNN, formatI, BitVec.getLsbD_extractLsb', BitVec.getLsbD_append]
  grind

/-- Format R as format I: its last two nibbles are a byte. -/
theorem formatR_eq (c : BitVec 4) (x y : Reg) (n : Nibble) :
    formatR c x y n = formatI c x (y ++ n) := by
  apply BitVec.eq_of_getLsbD_eq; intro i hi
  simp only [formatR, formatI, BitVec.getLsbD_append]
  grind

theorem formatR_class (c : BitVec 4) (x y : Reg) (n : Nibble) : fieldClass (formatR c x y n) = c := by
  rw [formatR_eq, formatI_class]

theorem formatR_x (c : BitVec 4) (x y : Reg) (n : Nibble) : fieldX (formatR c x y n) = x := by
  rw [formatR_eq, formatI_x]

theorem formatR_y (c : BitVec 4) (x y : Reg) (n : Nibble) : fieldY (formatR c x y n) = y := by
  apply BitVec.eq_of_getLsbD_eq; intro i hi
  simp only [fieldY, formatR, BitVec.getLsbD_extractLsb', BitVec.getLsbD_append]
  grind

theorem formatR_n (c : BitVec 4) (x y : Reg) (n : Nibble) : fieldN (formatR c x y n) = n := by
  apply BitVec.eq_of_getLsbD_eq; intro i hi
  simp only [fieldN, formatR, BitVec.getLsbD_extractLsb', BitVec.getLsbD_append]
  grind

/-- The two bytes of a word make the word again (spec/20_memory.md R52). -/
theorem wordOfBytes_high_low (op : Word16) : wordOfBytes (highByte op) (lowByte op) = op := by
  apply BitVec.eq_of_getLsbD_eq; intro i hi
  simp only [wordOfBytes, highByte, lowByte, BitVec.getLsbD_append, BitVec.getLsbD_extractLsb']
  by_cases h : i < 8
  · simp [h]
  · simp [h, show i - 8 < 8 by omega, show 8 + (i - 8) = i by omega]

/-! ## What each mask of the opcode map keeps of a format -/

/-- The bits of the three masks of the opcode map (R74). -/
theorem mapMask_bits (i : Nat) (h : i < 16) :
    (0xF000#16).getLsbD i = decide (12 ≤ i) ∧
    (0xF0FF#16).getLsbD i = (decide (12 ≤ i) || decide (i < 8)) ∧
    (0xF00F#16).getLsbD i = (decide (12 ≤ i) || decide (i < 4)) := by
  revert i; decide

theorem formatA_mask (c :
    BitVec 4) (a : Addr12) : formatA c a &&& 0xF000 = formatA c 0 := by
  apply BitVec.eq_of_getLsbD_eq; intro i hi
  have := mapMask_bits i hi
  simp only [formatA, BitVec.getLsbD_and, BitVec.getLsbD_append]
  grind

theorem formatI_mask (c :
    BitVec 4) (x : Reg) (n : Byte) : formatI c x n &&& 0xF000 = formatI c 0 0 := by
  apply BitVec.eq_of_getLsbD_eq; intro i hi
  have := mapMask_bits i hi
  simp only [formatI, BitVec.getLsbD_and, BitVec.getLsbD_append]
  grind

theorem formatI_selMask (c :
    BitVec 4) (x : Reg) (n : Byte) : formatI c x n &&& 0xF0FF = formatI c 0 n := by
  apply BitVec.eq_of_getLsbD_eq; intro i hi
  have := mapMask_bits i hi
  simp only [formatI, BitVec.getLsbD_and, BitVec.getLsbD_append]
  grind

theorem formatR_mask (c :
    BitVec 4) (x y : Reg) (n : Nibble) : formatR c x y n &&& 0xF000 = formatR c 0 0 0 := by
  apply BitVec.eq_of_getLsbD_eq; intro i hi
  have := mapMask_bits i hi
  simp only [formatR, BitVec.getLsbD_and, BitVec.getLsbD_append]
  grind

theorem formatR_selMask (c :
    BitVec 4) (x y : Reg) (n : Nibble) : formatR c x y n &&& 0xF00F = formatR c 0 0 n := by
  apply BitVec.eq_of_getLsbD_eq; intro i hi
  have := mapMask_bits i hi
  simp only [formatR, BitVec.getLsbD_and, BitVec.getLsbD_append]
  grind

end Sys2Proof
end

