-- ==== Sys2Proof/Laws/Memory.lean ====
section
/-! SUPPORT. The laws of Addressable Memory: read after write, and every operation keeps the canonical form. -/

namespace Sys2Proof.Machine

theorem Memory.read_put_other (m : Memory) (a a' : Nat) (b : Byte) (h : a' ≠ a) :
    Memory.read (Memory.put a b m) a' = Memory.read m a' := by
  unfold Memory.put; split
  · rfl
  · simp [Memory.read, h]

/-- An address no entry of the list reaches reads as the unlisted value. -/
theorem Memory.read_of_lt {m : Memory} {a : Nat} (h : ∀ c ∈ m, a < c.1) :
    Memory.read m a = Memory.unlisted := by
  induction m with
  | nil => rfl
  | cons c m ih =>
    have hc := h c (by simp)
    have : a ≠ c.1 := by omega
    simp only [Memory.read, if_neg this]
    exact ih fun d hd => h d (by simp [hd])

theorem Memory.read_put_same {m : Memory} {a : Nat} (b : Byte) (h : ∀ c ∈ m, a < c.1) :
    Memory.read (Memory.put a b m) a = b := by
  unfold Memory.put; split
  · next hb => rw [hb]; exact Memory.read_of_lt h
  · simp [Memory.read]

/-- A write leaves every other address alone, whatever the form of the list. -/
theorem Memory.read_write_other (m : Memory) {a a' : Nat} (b : Byte) (h : a' ≠ a) :
    Memory.read (Memory.write m a b) a' = Memory.read m a' := by
  induction m with
  | nil => simp [Memory.write, Memory.read_put_other _ _ _ _ h]
  | cons c m ih =>
    obtain ⟨k, v⟩ := c
    simp only [Memory.write]
    split
    · exact Memory.read_put_other _ _ _ _ h
    · split
      · next hk => subst hk; rw [Memory.read_put_other _ _ _ _ h]; simp [Memory.read, h]
      · simp only [Memory.read, ih]

theorem Memory.wf_tail {c : Host.Cell} {m : Memory} (h : Memory.wf (c :: m)) : Memory.wf m :=
  ⟨(List.pairwise_cons.1 h.1).2, fun d hd => h.2 d (by simp [hd])⟩

theorem Memory.head_lt {c : Host.Cell} {m : Memory} (h : Memory.wf (c :: m)) : ∀ d ∈ m, c.1 < d.1 :=
  (List.pairwise_cons.1 h.1).1

/-- In canonical form a read after a write to the same address gives the byte written. -/
theorem Memory.read_write_same {m : Memory} (hm : Memory.wf m) (a : Nat) (b : Byte) :
    Memory.read (Memory.write m a b) a = b := by
  induction m with
  | nil => exact Memory.read_put_same b (by simp)
  | cons c m ih =>
    obtain ⟨k, v⟩ := c
    have hlt := Memory.head_lt hm
    simp only [Memory.write]
    split
    · next h =>
      refine Memory.read_put_same b ?_
      intro d hd
      rcases List.mem_cons.1 hd with rfl | hd
      · exact h
      · have := hlt d hd
        simp only at this
        omega
    · split
      · next h => subst h; exact Memory.read_put_same b hlt
      · next h => simp only [Memory.read, if_neg h]; exact ih (Memory.wf_tail hm)

theorem Memory.wf_put {m : Memory} (hm : Memory.wf m) {a : Nat} (ha : a < 4096) (b : Byte)
    (h : ∀ c ∈ m, a < c.1) : Memory.wf (Memory.put a b m) := by
  unfold Memory.put; split
  · exact hm
  · next hb =>
    refine ⟨List.pairwise_cons.2 ⟨h, hm.1⟩, ?_⟩
    intro c hc
    rcases List.mem_cons.1 hc with rfl | hc
    · exact ⟨ha, hb⟩
    · exact hm.2 c hc

theorem Memory.mem_write {m : Memory} {a : Nat} {b : Byte} {c : Host.Cell}
    (h : c ∈ Memory.write m a b) : c = (a, b) ∨ c ∈ m := by
  have put (m : Memory) (h : c ∈ Memory.put a b m) : c = (a, b) ∨ c ∈ m := by
    unfold Memory.put at h; split at h
    · exact .inr h
    · simpa using h
  induction m with
  | nil => exact put [] h
  | cons d m ih =>
    obtain ⟨k, v⟩ := d
    simp only [Memory.write] at h
    split at h
    · exact put _ h
    · split at h
      · rcases put _ h with h | h
        · exact .inl h
        · exact .inr (by simp [h])
      · rcases List.mem_cons.1 h with h | h
        · exact .inr (by simp [h])
        · rcases ih h with h | h
          · exact .inl h
          · exact .inr (by simp [h])

/-- A write keeps the canonical form. -/
theorem Memory.wf_write {m : Memory} (hm : Memory.wf m) {a : Nat} (ha : a < 4096) (b : Byte) :
    Memory.wf (Memory.write m a b) := by
  induction m with
  | nil => exact Memory.wf_put hm ha b (by simp)
  | cons c m ih =>
    obtain ⟨k, v⟩ := c
    have hlt := Memory.head_lt hm
    simp only [Memory.write]
    split
    · next h =>
      refine Memory.wf_put hm ha b ?_
      intro d hd
      rcases List.mem_cons.1 hd with rfl | hd
      · exact h
      · have := hlt d hd
        simp only at this
        omega
    · split
      · next h => subst h; exact Memory.wf_put (Memory.wf_tail hm) ha b hlt
      · next h1 h2 =>
        have ih := ih (Memory.wf_tail hm)
        refine ⟨List.pairwise_cons.2 ⟨?_, ih.1⟩, ?_⟩
        · intro d hd
          rcases Memory.mem_write hd with rfl | hd
          · simp only
            omega
          · exact hlt d hd
        · intro d hd
          rcases List.mem_cons.1 hd with rfl | hd
          · exact hm.2 _ (by simp)
          · exact ih.2 d hd

theorem physAddr_lt (a : Nat) : physAddr a < 4096 := Nat.mod_lt _ (by decide)

theorem physAddr_eq (a : Nat) : physAddr a = a % 4096 := rfl

/-- Storing bytes keeps the canonical form. -/
theorem wf_storeBytes (bytes : List Byte) : ∀ {m : Memory} (a : Nat), Memory.wf m →
    Memory.wf (storeBytes m a bytes) := by
  induction bytes with
  | nil => exact fun _ h => h
  | cons b bs ih => exact fun a h => ih (a + 1) (Memory.wf_write h (physAddr_lt a) b)

/-- Storing bytes leaves every address outside the stored ones alone. -/
theorem read_storeBytes_other (bytes : List Byte) : ∀ (m : Memory) (a a' : Nat),
    (∀ k < bytes.length, a' ≠ (a + k) % 4096) →
    Memory.read (storeBytes m a bytes) a' = Memory.read m a' := by
  induction bytes with
  | nil => exact fun _ _ _ _ => rfl
  | cons b bs ih =>
    intro m a a' h
    rw [storeBytes, ih _ _ _ fun k hk => ?_, Memory.read_write_other]
    · exact h 0 (by simp)
    · have := h (k + 1) (by simp [hk])
      rwa [show a + 1 + k = a + (k + 1) by omega]

/-- Each stored byte is read back at its own address, if the bytes do not go round the whole memory. -/
theorem read_storeBytes_same (bytes : List Byte) : ∀ {m : Memory} (a k : Nat), Memory.wf m →
    bytes.length ≤ 4096 → (hk : k < bytes.length) →
    Memory.read (storeBytes m a bytes) ((a + k) % 4096) = bytes[k] := by
  induction bytes with
  | nil => intro m a k _ _ hk; simp at hk
  | cons b bs ih =>
    intro m a k hm hl hk
    have hw := Memory.wf_write hm (physAddr_lt a) b
    cases k with
    | zero =>
      rw [storeBytes, read_storeBytes_other]
      · exact Memory.read_write_same hm _ _
      · intro j hj
        simp only [List.length_cons] at hl
        omega
    | succ k =>
      simp only [List.length_cons] at hl hk
      have := ih (a + 1) k hw (by omega) (by omega)
      rw [show a + 1 + k = a + (k + 1) by omega] at this
      simpa [storeBytes] using this

end Sys2Proof.Machine
end

