-- ==== Sys2Proof/Laws/State.lean ====
section
/-! SUPPORT. The small lemmas of the state: what each update leaves of each field. -/

namespace Sys2Proof.Machine

/-! ## setReg -/

@[simp] theorem setReg_cfg (s : State) (x : Reg) (b : Byte) : (s.setReg x b).cfg = s.cfg := rfl
@[simp] theorem setReg_i (s : State) (x : Reg) (b : Byte) : (s.setReg x b).i = s.i := rfl
@[simp] theorem setReg_pc (s : State) (x : Reg) (b : Byte) : (s.setReg x b).pc = s.pc := rfl
@[simp] theorem setReg_sp (s : State) (x : Reg) (b : Byte) : (s.setReg x b).sp = s.sp := rfl
@[simp] theorem setReg_stk (s : State) (x : Reg) (b : Byte) : (s.setReg x b).stk = s.stk := rfl
@[simp] theorem setReg_dt (s : State) (x : Reg) (b : Byte) : (s.setReg x b).dt = s.dt := rfl
@[simp] theorem setReg_st (s : State) (x : Reg) (b : Byte) : (s.setReg x b).st = s.st := rfl
@[simp] theorem setReg_fb (s : State) (x : Reg) (b : Byte) : (s.setReg x b).fb = s.fb := rfl
@[simp] theorem setReg_key (s : State) (x : Reg) (b : Byte) : (s.setReg x b).key = s.key := rfl
@[simp] theorem setReg_mem (s : State) (x : Reg) (b : Byte) : (s.setReg x b).mem = s.mem := rfl
@[simp] theorem setReg_status (s : State) (x : Reg) (b : Byte) : (s.setReg x b).status = s.status := rfl
@[simp] theorem setReg_draws (s : State) (x : Reg) (b : Byte) : (s.setReg x b).draws = s.draws := rfl

@[simp] theorem reg_setReg_same (s : State) (x : Reg) (b : Byte) : (s.setReg x b).reg x = b := by
  simp [State.setReg, State.reg]

@[simp] theorem reg_setReg_other (s : State) {x j : Reg} (b : Byte) (h : j ≠ x) :
    (s.setReg x b).reg j = s.reg j := by
  have : x.toNat ≠ j.toNat := fun e => h (BitVec.eq_of_toNat_eq e.symm)
  simp [State.setReg, State.reg, this]

theorem reg_setReg (s : State) (x j : Reg) (b : Byte) :
    (s.setReg x b).reg j = if j = x then b else s.reg j := by
  split
  · subst j; simp
  · next h => simp [h]

/-! ## setPc, setI -/

@[simp] theorem setPc_cfg (s : State) (a : Word16) : (s.setPc a).cfg = s.cfg := rfl
@[simp] theorem setPc_v (s : State) (a : Word16) : (s.setPc a).v = s.v := rfl
@[simp] theorem setPc_i (s : State) (a : Word16) : (s.setPc a).i = s.i := rfl
@[simp] theorem setPc_pc (s : State) (a : Word16) : (s.setPc a).pc = a := rfl
@[simp] theorem setPc_sp (s : State) (a : Word16) : (s.setPc a).sp = s.sp := rfl
@[simp] theorem setPc_stk (s : State) (a : Word16) : (s.setPc a).stk = s.stk := rfl
@[simp] theorem setPc_dt (s : State) (a : Word16) : (s.setPc a).dt = s.dt := rfl
@[simp] theorem setPc_st (s : State) (a : Word16) : (s.setPc a).st = s.st := rfl
@[simp] theorem setPc_fb (s : State) (a : Word16) : (s.setPc a).fb = s.fb := rfl
@[simp] theorem setPc_key (s : State) (a : Word16) : (s.setPc a).key = s.key := rfl
@[simp] theorem setPc_mem (s : State) (a : Word16) : (s.setPc a).mem = s.mem := rfl
@[simp] theorem setPc_status (s : State) (a : Word16) : (s.setPc a).status = s.status := rfl
@[simp] theorem setPc_draws (s : State) (a : Word16) : (s.setPc a).draws = s.draws := rfl
@[simp] theorem setPc_reg (s : State) (a : Word16) (x : Reg) : (s.setPc a).reg x = s.reg x := rfl

@[simp] theorem setI_cfg (s : State) (a : Word16) : (s.setI a).cfg = s.cfg := rfl
@[simp] theorem setI_v (s : State) (a : Word16) : (s.setI a).v = s.v := rfl
@[simp] theorem setI_i (s : State) (a : Word16) : (s.setI a).i = a := rfl
@[simp] theorem setI_pc (s : State) (a : Word16) : (s.setI a).pc = s.pc := rfl
@[simp] theorem setI_sp (s : State) (a : Word16) : (s.setI a).sp = s.sp := rfl
@[simp] theorem setI_stk (s : State) (a : Word16) : (s.setI a).stk = s.stk := rfl
@[simp] theorem setI_dt (s : State) (a : Word16) : (s.setI a).dt = s.dt := rfl
@[simp] theorem setI_st (s : State) (a : Word16) : (s.setI a).st = s.st := rfl
@[simp] theorem setI_fb (s : State) (a : Word16) : (s.setI a).fb = s.fb := rfl
@[simp] theorem setI_key (s : State) (a : Word16) : (s.setI a).key = s.key := rfl
@[simp] theorem setI_mem (s : State) (a : Word16) : (s.setI a).mem = s.mem := rfl
@[simp] theorem setI_status (s : State) (a : Word16) : (s.setI a).status = s.status := rfl
@[simp] theorem setI_draws (s : State) (a : Word16) : (s.setI a).draws = s.draws := rfl
@[simp] theorem setI_reg (s : State) (a : Word16) (x : Reg) : (s.setI a).reg x = s.reg x := rfl

/-! ## advance -/

@[simp] theorem advance_cfg (s : State) : s.advance.cfg = s.cfg := rfl
@[simp] theorem advance_v (s : State) : s.advance.v = s.v := rfl
@[simp] theorem advance_i (s : State) : s.advance.i = s.i := rfl
@[simp] theorem advance_pc (s : State) : s.advance.pc = s.pc + 2 := rfl
@[simp] theorem advance_sp (s : State) : s.advance.sp = s.sp := rfl
@[simp] theorem advance_stk (s : State) : s.advance.stk = s.stk := rfl
@[simp] theorem advance_dt (s : State) : s.advance.dt = s.dt := rfl
@[simp] theorem advance_st (s : State) : s.advance.st = s.st := rfl
@[simp] theorem advance_fb (s : State) : s.advance.fb = s.fb := rfl
@[simp] theorem advance_key (s : State) : s.advance.key = s.key := rfl
@[simp] theorem advance_mem (s : State) : s.advance.mem = s.mem := rfl
@[simp] theorem advance_status (s : State) : s.advance.status = s.status := rfl
@[simp] theorem advance_draws (s : State) : s.advance.draws = s.draws := rfl
@[simp] theorem advance_reg (s : State) (x : Reg) : s.advance.reg x = s.reg x := rfl
@[simp] theorem advance_memRead (s : State) (a : Nat) : s.advance.memRead a = s.memRead a := rfl

/-! ## skipIf: only `pc` changes -/

theorem skipIf_eq_setPc (s : State) (c : Bool) :
    s.skipIf c = s.setPc (if c then s.pc + 2 else s.pc) := by
  cases c <;> rfl

@[simp] theorem skipIf_pc (s : State) (c : Bool) :
    (s.skipIf c).pc = if c then s.pc + 2 else s.pc := by
  rw [skipIf_eq_setPc]; rfl

@[simp] theorem skipIf_reg (s : State) (c : Bool) (x : Reg) : (s.skipIf c).reg x = s.reg x := by
  rw [skipIf_eq_setPc]; rfl

@[simp] theorem skipIf_status (s : State) (c : Bool) : (s.skipIf c).status = s.status := by
  rw [skipIf_eq_setPc]; rfl

@[simp] theorem skipIf_mem (s : State) (c : Bool) : (s.skipIf c).mem = s.mem := by
  rw [skipIf_eq_setPc]; rfl

/-! ## takeFault, reportDecodeError: only `STATUS` changes -/

@[simp] theorem takeFault_frame (f : FatalFault) (n : Nat) (s : State) :
    { takeFault f n s with status := s.status } = s := rfl
@[simp] theorem takeFault_pc (f : FatalFault) (n : Nat) (s : State) : (takeFault f n s).pc = s.pc := rfl
@[simp] theorem takeFault_mem (f : FatalFault) (n : Nat) (s : State) : (takeFault f n s).mem = s.mem := rfl
@[simp] theorem takeFault_halt (f : FatalFault) (n : Nat) (s : State) :
    (takeFault f n s).status.halt = true := rfl
@[simp] theorem takeFault_reg (f : FatalFault) (n : Nat) (s : State) (x : Reg) :
    (takeFault f n s).reg x = s.reg x := rfl

@[simp] theorem reportDecodeError_frame (op : Word16) (s : State) :
    { reportDecodeError op s with status := s.status } = s := rfl
@[simp] theorem reportDecodeError_pc (op : Word16) (s : State) : (reportDecodeError op s).pc = s.pc := rfl
@[simp] theorem reportDecodeError_mem (op : Word16) (s : State) : (reportDecodeError op s).mem = s.mem := rfl
@[simp] theorem reportDecodeError_halt (op : Word16) (s : State) :
    (reportDecodeError op s).status.halt = s.status.halt := rfl

/-! ## postStep: only the timers and the draw index change -/

@[simp] theorem postStep_frame (s : State) :
    { postStep s with dt := s.dt, st := s.st, draws := s.draws } = s := rfl
@[simp] theorem postStep_pc (s : State) : (postStep s).pc = s.pc := rfl
@[simp] theorem postStep_mem (s : State) : (postStep s).mem = s.mem := rfl
@[simp] theorem postStep_status (s : State) : (postStep s).status = s.status := rfl
@[simp] theorem postStep_reg (s : State) (x : Reg) : (postStep s).reg x = s.reg x := rfl

end Sys2Proof.Machine
end

