-- ==== Sys2Proof/Laws/Ops.lean ====
section
/-! SUPPORT. What each shared operation of the machine can do, said once: callers cite these and do not unfold the
operation. -/

namespace Sys2Proof.Machine

/-! ## The bounds rule -/

/-- The range check fails exactly where R55 raises. -/
theorem dataOut_eq_true {s : State} {n : Nat} :
    s.dataOut n = true ↔ s.cfg.oob = .fault ∧ 0 < n ∧ s.i.toNat + n - 1 > 0xFFF := by
  simp [State.dataOut]

theorem dataOut_of_inRange {s : State} {n : Nat} (h : s.inRange n) : s.dataOut n = false := by
  rw [Bool.eq_false_iff, Ne, dataOut_eq_true]
  rintro ⟨hf, hn, hi⟩
  rcases h hf with h | h <;> omega

theorem inRange_of_dataOut {s : State} {n : Nat} (h : s.dataOut n = false) : s.inRange n := by
  intro hf
  rw [Bool.eq_false_iff, Ne, dataOut_eq_true] at h
  by_contra hc
  exact h ⟨hf, by omega, by omega⟩

/-- A memory instruction either takes `MemBounds` on the state before it, or has its effect after the advance. -/
theorem withData_eq (n : Nat) (s : State) (k : State → State) :
    (s.dataOut n = true ∧ withData n s k = .next (takeFault .memBounds (max s.i.toNat 0x1000) s)) ∨
    (s.dataOut n = false ∧ withData n s k = .next (k s.advance)) := by
  unfold withData
  cases s.dataOut n <;> simp

theorem withData_of_inRange {n : Nat} {s : State} (h : s.inRange n) (k : State → State) :
    withData n s k = .next (k s.advance) := by
  simp [withData, dataOut_of_inRange h]

theorem withData_of_dataOut {n : Nat} {s : State} (h : s.dataOut n = true) (k : State → State) :
    withData n s k = .next (takeFault .memBounds (max s.i.toNat 0x1000) s) := by
  simp [withData, h]

/-! ## The call stack -/

/-- A push either overflows a full stack, or writes the entry at `SP`. -/
theorem pushAndJump_eq (a : Word16) (s : State) :
    (s.sp.val = 16 ∧ pushAndJump a s = takeFault .stackOverflow 16 s) ∨
    (∃ h : s.sp.val < 16, pushAndJump a s =
      { s with stk := s.stk.set s.sp.val (s.pc + 2) h, sp := ⟨s.sp.val + 1, by omega⟩, pc := a }) := by
  by_cases h : s.sp.val < 16
  · exact .inr ⟨h, by simp [pushAndJump, h]⟩
  · have h16 : s.sp.val = 16 := by have := s.sp.isLt; omega
    exact .inl ⟨h16, by simp [pushAndJump, h16]⟩

/-- A pop either underflows an empty stack, or takes the entry below `SP`. -/
theorem popAndJump_eq (s : State) :
    (s.sp.val = 0 ∧ popAndJump s = takeFault .stackUnderflow 0 s) ∨
    (∃ h : 0 < s.sp.val, popAndJump s =
      { s with sp := ⟨s.sp.val - 1, by omega⟩, pc := s.stk[s.sp.val - 1]'(by omega) }) := by
  by_cases h : s.sp.val = 0
  · exact .inl ⟨h, by unfold popAndJump; rw [dif_pos h, h]⟩
  · exact .inr ⟨by omega, by unfold popAndJump; rw [dif_neg h]⟩

/-! ## The post-step -/

theorem countDown_toNat (t : Byte) : (countDown t).toNat = t.toNat - 1 := by
  unfold countDown
  split
  · next h => subst h; rfl
  · next h =>
    have : t.toNat ≠ 0 := fun e => h (BitVec.eq_of_toNat_eq e)
    have := t.isLt
    have h1 : (1 : Byte).toNat = 1 := rfl
    rw [BitVec.toNat_sub, h1]
    omega

/-- Phase 5 on a next state. -/
theorem finish_next (t : State) :
    (t.status.halt = true ∧ finish (.next t) = .next t) ∨
    (t.status.halt = false ∧ finish (.next t) = .next (postStep t)) := by
  cases h : t.status.halt <;> simp [finish, h]

/-! ## Result and flag (spec/42_alu.md R133) -/

@[simp] theorem writeResultAndFlag_pc (x : Reg) (r : Byte) (f : Bool) (s : State) :
    (writeResultAndFlag x r f s).pc = s.pc := by
  unfold writeResultAndFlag; split <;> rfl

@[simp] theorem writeResultAndFlag_status (x : Reg) (r : Byte) (f : Bool) (s : State) :
    (writeResultAndFlag x r f s).status = s.status := by
  unfold writeResultAndFlag; split <;> rfl

/-- Only registers change. -/
theorem writeResultAndFlag_frame (x : Reg) (r : Byte) (f : Bool) (s : State) :
    { writeResultAndFlag x r f s with v := s.v } = s := by
  unfold writeResultAndFlag; split <;> rfl

/-- Every register after the two writes. -/
theorem reg_writeResultAndFlag (x j : Reg) (r : Byte) (f : Bool) (s : State) :
    (writeResultAndFlag x r f s).reg j =
      match s.cfg.vfOrder with
      | .flagLast => if j = regVF then flagByte f else if j = x then r else s.reg j
      | .flagFirst => if j = x then r else if j = regVF then flagByte f else s.reg j := by
  unfold writeResultAndFlag
  cases s.cfg.vfOrder <;> simp [reg_setReg]

/-! ## Block transfer (spec/43_index_memory.md) -/

theorem length_firstRegs (s : State) (n : Nat) : (s.firstRegs n).length = n := by
  induction n with
  | zero => rfl
  | succ n ih => simp [State.firstRegs, ih]

theorem getElem_firstRegs (s : State) (n k : Nat) (h : k < (s.firstRegs n).length) :
    (s.firstRegs n)[k] = s.reg (BitVec.ofNat 4 k) := by
  induction n with
  | zero => simp [State.firstRegs] at h
  | succ n ih =>
    simp only [State.firstRegs, List.getElem_append]
    split
    · next h' => exact ih h'
    · next h' =>
      rw [length_firstRegs] at h h'
      have : k = n := by omega
      subst this
      simp

/-- A block load changes registers only. -/
theorem loadFromI_frame (n : Nat) (s : State) : { loadFromI n s with v := s.v } = s := by
  induction n with
  | zero => rfl
  | succ n ih => exact ih

theorem loadFromI_memRead (n : Nat) (s : State) (a : Nat) : (loadFromI n s).memRead a = s.memRead a := by
  have : (loadFromI n s).mem = s.mem := by simpa using congrArg State.mem (loadFromI_frame n s)
  simp [State.memRead, this]

/-- A block load of `n ≤ 16` registers loads exactly the first `n`. -/
theorem reg_loadFromI (n : Nat) (hn : n ≤ 16) (s : State) (j : Reg) :
    (loadFromI n s).reg j = if j.toNat < n then s.memRead (s.i.toNat + j.toNat) else s.reg j := by
  induction n with
  | zero => simp [loadFromI]
  | succ n ih =>
    have ih := ih (by omega)
    rw [loadFromI, reg_setReg, ih]
    have hj : j = BitVec.ofNat 4 n ↔ j.toNat = n := by
      rw [← BitVec.toNat_inj, BitVec.toNat_ofNat, Nat.mod_eq_of_lt (by omega)]
    by_cases h : j.toNat = n
    · rw [if_pos (hj.2 h), if_pos (by omega), h]
    · rw [if_neg (mt hj.1 h)]
      by_cases h' : j.toNat < n
      · rw [if_pos h', if_pos (by omega)]
      · rw [if_neg h', if_neg (by omega)]

theorem length_memBytes (s : State) (n : Nat) : ∀ a, (s.memBytes a n).length = n := by
  induction n with
  | zero => exact fun _ => rfl
  | succ n ih => exact fun a => by simp [State.memBytes, ih]

theorem getElem_memBytes (s : State) (n : Nat) : ∀ (a k : Nat) (h : k < (s.memBytes a n).length),
    (s.memBytes a n)[k] = s.memRead (a + k) := by
  induction n with
  | zero => intro a k h; simp [State.memBytes] at h
  | succ n ih =>
    intro a k h
    cases k with
    | zero => rfl
    | succ k =>
      simp only [State.memBytes, List.getElem_cons_succ]
      rw [ih, show a + 1 + k = a + (k + 1) by omega]

/-! ## The framebuffer -/

theorem lit_flip (fb : Screen) (p q : Pixel) :
    Screen.lit (Screen.flip fb p) q = (if q = p then !Screen.lit fb p else Screen.lit fb q) := by
  obtain ⟨y, x⟩ := p
  obtain ⟨y', x'⟩ := q
  simp only [Screen.lit, Screen.flip, Prod.mk.injEq]
  by_cases hy : y' = y
  · subst hy
    by_cases hx : x' = x
    · subst hx; simp
    · have : x.val ≠ x'.val := fun e => hx (Fin.ext e.symm)
      simp [hx, this]
  · have : y.val ≠ y'.val := fun e => hy (Fin.ext e.symm)
    simp [hy, this]

/-- Two framebuffers with the same cells are the same. -/
theorem screen_ext {fb fb' : Screen} (h : ∀ p, Screen.lit fb p = Screen.lit fb' p) : fb = fb' := by
  apply Vector.ext; intro y hy
  apply Vector.ext; intro x hx
  exact h (⟨y, hy⟩, ⟨x, hx⟩)

theorem lit_clear (p : Pixel) : Screen.lit Screen.clear p = false := by
  simp [Screen.lit, Screen.clear]

/-- Drawing a list without repeats flips the cells of the list and no other. -/
theorem lit_drawPixels (ps : List Pixel) : ∀ (fb : Screen) (c : Bool), ps.Nodup → ∀ q,
    Screen.lit (drawPixels fb c ps).1 q = (if q ∈ ps then !Screen.lit fb q else Screen.lit fb q) := by
  induction ps with
  | nil => intro fb c _ q; simp [drawPixels]
  | cons p ps ih =>
    intro fb c hn q
    rw [drawPixels, ih _ _ (List.nodup_cons.1 hn).2, lit_flip]
    by_cases hq : q = p
    · subst hq; simp [(List.nodup_cons.1 hn).1]
    · simp [hq]

/-- The collision flag: some listed cell was lit before, or the flag was up already. -/
theorem coll_drawPixels (ps : List Pixel) : ∀ (fb : Screen) (c : Bool), ps.Nodup →
    ((drawPixels fb c ps).2 = true ↔ c = true ∨ ∃ p ∈ ps, Screen.lit fb p = true) := by
  induction ps with
  | nil => intro fb c _; simp [drawPixels]
  | cons p ps ih =>
    intro fb c hn
    obtain ⟨hp, hn⟩ := List.nodup_cons.1 hn
    rw [drawPixels, ih _ _ hn, Bool.or_eq_true]
    have : (∃ q ∈ ps, Screen.lit (Screen.flip fb p) q = true) ↔ ∃ q ∈ ps, Screen.lit fb q = true := by
      refine exists_congr fun q => and_congr_right fun hq => ?_
      rw [lit_flip, if_neg (by rintro rfl; exact hp hq)]
    rw [this]
    simp [or_assoc]

end Sys2Proof.Machine
end

