-- ==== Sys2Proof/Laws/Display.lean ====
section
/-! SUPPORT. The cells of a sprite: which they are, and that none is listed twice (spec/44_display.md R161 (b)). -/

namespace Sys2Proof.Machine

/-- Where a sprite pixel falls, for both settings of `P_DRAW_EDGE`. -/
theorem placePixel_eq_some {edge : DrawEdge} {x y : Nat} {p : Pixel} :
    placePixel edge x y = some p ↔
      match edge with
      | .wrap => p.1.val = y % 32 ∧ p.2.val = x % 64
      | .clip => p.1.val = y ∧ p.2.val = x := by
  obtain ⟨⟨py, hy⟩, ⟨px, hx⟩⟩ := p
  cases edge with
  | wrap => simp [placePixel, Fin.ofNat, eq_comm]
  | clip =>
    simp only [placePixel]
    split
    · next h => simp only [reduceCtorEq, false_iff]; omega
    · next h =>
      simp only [Fin.ofNat, Option.some.injEq, Prod.mk.injEq, Fin.mk.injEq]
      omega

theorem mem_rowPixels {edge : DrawEdge} {x0 y : Nat} {b : Byte} {p : Pixel} :
    p ∈ rowPixels edge x0 y b ↔
      ∃ c, c < 8 ∧ b.getLsbD (7 - c) = true ∧ placePixel edge (x0 + c) y = some p := by
  simp [rowPixels, List.mem_filterMap]

theorem mem_spritePixels {edge : DrawEdge} {x0 : Nat} (bs : List Byte) : ∀ {y : Nat} {p : Pixel},
    p ∈ spritePixels edge x0 y bs ↔
      ∃ r c, ∃ h : r < bs.length, c < 8 ∧ (bs[r]).getLsbD (7 - c) = true ∧
        placePixel edge (x0 + c) (y + r) = some p := by
  induction bs with
  | nil => simp [spritePixels]
  | cons b bs ih =>
    intro y p
    rw [spritePixels, List.mem_append, mem_rowPixels, ih]
    constructor
    · rintro (⟨c, hc, hb, hp⟩ | ⟨r, c, hr, hc, hb, hp⟩)
      · exact ⟨0, c, by simp, hc, hb, hp⟩
      · refine ⟨r + 1, c, by simpa using hr, hc, by simpa using hb, ?_⟩
        rwa [show y + (r + 1) = y + 1 + r by omega]
    · rintro ⟨r, c, hr, hc, hb, hp⟩
      cases r with
      | zero => exact .inl ⟨c, hc, hb, hp⟩
      | succ r =>
        refine .inr ⟨r, c, by simpa using hr, hc, by simpa using hb, ?_⟩
        rwa [show y + 1 + r = y + (r + 1) by omega]

/-- Two pixels of a sprite that fall on one cell are one pixel: 8 columns of 64, at most 32 rows of 32. -/
theorem placePixel_inj {edge : DrawEdge} {x0 y c c' r r' : Nat} {p : Pixel} (hc : c < 8) (hc' : c' < 8)
    (hr : r < 32) (hr' : r' < 32) (h : placePixel edge (x0 + c) (y + r) = some p)
    (h' : placePixel edge (x0 + c') (y + r') = some p) : c = c' ∧ r = r' := by
  rw [placePixel_eq_some] at h h'
  cases edge <;> simp only at h h' <;> omega

theorem nodup_rowPixels (edge : DrawEdge) (x0 y : Nat) (b : Byte) : (rowPixels edge x0 y b).Nodup := by
  unfold rowPixels List.Nodup
  rw [List.pairwise_filterMap]
  refine List.Pairwise.imp_of_mem ?_ (List.pairwise_lt_range (n := 8))
  intro c c' hc hc' hlt p hp p' hp' e
  rw [List.mem_range] at hc hc'
  subst e
  split at hp
  · split at hp'
    · have := (placePixel_inj (r := 0) (r' := 0) hc hc' (by omega) (by omega) hp hp').1
      omega
    · cases hp'
  · cases hp

theorem nodup_spritePixels {edge : DrawEdge} {x0 : Nat} (bs : List Byte) : ∀ {y : Nat}, bs.length ≤ 32 →
    (spritePixels edge x0 y bs).Nodup := by
  induction bs with
  | nil => intro y _; simp [spritePixels]
  | cons b bs ih =>
    intro y hl
    simp only [List.length_cons] at hl
    rw [spritePixels, List.nodup_append]
    refine ⟨nodup_rowPixels _ _ _ _, ih (by omega), ?_⟩
    intro p hp q hq e
    subst e
    rw [mem_rowPixels] at hp
    rw [mem_spritePixels] at hq
    obtain ⟨c, hc, -, hp⟩ := hp
    obtain ⟨r, c', hr, hc', -, hq⟩ := hq
    have := (placePixel_inj (r := 0) (r' := r + 1) hc hc' (by omega) (by omega) hp
      (by rwa [show y + (r + 1) = y + 1 + r by omega])).2
    omega

/-- The cells `DRW` draws are the cells the statement of R161 names. -/
theorem mem_drwPixels {s : State} {x y : Reg} {n : Nibble} {p : Pixel} :
    p ∈ drwPixels x y n s ↔ spriteHits s x y n p := by
  unfold drwPixels spriteHits
  rw [mem_spritePixels]
  refine exists_congr fun r => exists_congr fun c => ?_
  rw [placePixel_eq_some]
  have hl := length_memBytes s n.toNat s.i.toNat
  constructor
  · rintro ⟨hr, hc, hb, hp⟩
    rw [getElem_memBytes] at hb
    refine ⟨by omega, hc, hb, ?_⟩
    cases h : s.cfg.drawEdge <;> simpa [h] using hp
  · rintro ⟨hr, hc, hb, hp⟩
    refine ⟨by omega, hc, by rw [getElem_memBytes]; exact hb, ?_⟩
    cases h : s.cfg.drawEdge <;> simpa [h] using hp

theorem nodup_drwPixels (s : State) (x y : Reg) (n : Nibble) : (drwPixels x y n s).Nodup := by
  refine nodup_spritePixels _ ?_
  rw [length_memBytes]
  have := n.isLt
  omega

end Sys2Proof.Machine
end

