-- ==== Sys2Proof/Laws/Step.lean ====
section
/-! SUPPORT. What a step can do, said once, and what placing an instruction for the next step does. -/

namespace Sys2Proof.Machine

/-- The word a step fetches, spelled over memory. -/
theorem wordAt_eq_bigEndian (s : State) (a : Nat) : s.wordAt a = s.bigEndian a := rfl

/-- A step is one of five things. -/
theorem step_cases {s t : State} (h : step s = .next t) :
    (s.status.halt = true ∧ t = s) ∨
    (s.status.halt = false ∧ s.fetchOut = true ∧ t = takeFault .fetchBounds (max s.pc.toNat 0x1000) s) ∨
    (s.status.halt = false ∧ s.fetchOut = false ∧
      ((∃ i, decode s.cfg.encLdF10 (s.wordAt s.pc.toNat) = .instr i ∧ finish (exec i s) = .next t) ∨
       (∃ x, decode s.cfg.encLdF10 (s.wordAt s.pc.toNat) = .ldF10 x ∧ finish (execLdF10 x s) = .next t) ∨
       (∃ op, decode s.cfg.encLdF10 (s.wordAt s.pc.toNat) = .unrecognized op ∧
          t = postStep (reportDecodeError op s).advance))) := by
  unfold step cycle at h
  cases hh : s.status.halt with
  | true => left; simpa [hh, eq_comm] using h
  | false =>
    right
    cases hf : s.fetchOut with
    | true => left; simpa [hh, hf, eq_comm] using h
    | false =>
      right
      refine ⟨rfl, rfl, ?_⟩
      simp only [hh, hf, Bool.false_eq_true, if_false] at h
      cases hd : decode s.cfg.encLdF10 (s.wordAt s.pc.toNat) with
      | instr i => rw [hd] at h; exact .inl ⟨i, rfl, h⟩
      | ldF10 x => rw [hd] at h; exact .inr (.inl ⟨x, rfl, h⟩)
      | unrecognized op =>
        rw [hd] at h
        refine .inr (.inr ⟨op, rfl, ?_⟩)
        simpa [runDecoded, finish, hh, eq_comm] using h

/-- A step of a running engine that can fetch runs what it decodes. -/
theorem step_eq_runDecoded {s : State} (hh : s.status.halt = false) (hf : s.fetchOut = false) :
    step s = runDecoded (decode s.cfg.encLdF10 (s.wordAt s.pc.toNat)) s := by
  simp [step, cycle, hh, hf]

/-- An unrecognized word is rejected by its own name. -/
theorem decode_unrecognized {k : Option Byte} {op op' : Word16} (h : decode k op = .unrecognized op') :
    op' = op := by
  unfold decode decodeSystem decodeSkipReg decodeAlu decodeKey decodeMisc decodeLdF10 at h
  repeat' split at h
  all_goals first | (cases h; rfl) | cases h

end Sys2Proof.Machine
end

