-- ==== Sys2Proof/Laws/Exec.lean ====
section
/-! SUPPORT. What an instruction can do, said once: it raises the fatal fault of its own rule, or it completes with
`STATUS`, the parameters and the keys untouched. -/

namespace Sys2Proof.Machine

/-- The condition under which the instruction raises the fault, and the value it records (spec/60_exceptions.md
R200; `FetchBounds` is the step's, not an instruction's). -/
def Raises (i : Instr) (s : State) : FatalFault → Nat → Prop
  | .stackOverflow, n => (∃ nnn, i = .call nnn) ∧ s.sp.val = 16 ∧ n = 16
  | .stackUnderflow, n => i = .ret ∧ s.sp.val = 0 ∧ n = 0
  | .memBounds, n =>
    (s.cfg.oob = .fault ∧ 0 < dataLength i ∧ s.i.toNat + dataLength i - 1 > 0xFFF) ∧ n = max s.i.toNat 0x1000
  | .fetchBounds, _ => False
  | .keyIndex, n =>
    s.cfg.keyIndex = .fault ∧ ∃ x, (i = .skp x ∨ i = .sknp x) ∧ (s.reg x).toNat > 15 ∧ n = (s.reg x).toNat

/-- What every completed instruction leaves: the parameters, the keys, `STATUS`, the index of the random source,
and memory in canonical form if it was. -/
structure Completed (s t : State) : Prop where
  cfg : t.cfg = s.cfg
  key : t.key = s.key
  status : t.status = s.status
  draws : t.draws = s.draws
  wf : Memory.wf s.mem → Memory.wf t.mem

theorem Completed.of_frame {s t : State} (h : { t with v := s.v, pc := s.pc } = s) : Completed s t := by
  rw [← h]
  exact ⟨rfl, rfl, rfl, rfl, id⟩

/-- The inversion of a memory instruction. -/
theorem withData_cases {i : Instr} {n : Nat} {s t : State} {k : State → State} (hn : dataLength i = n)
    (hk : Completed s (k s.advance)) (h : withData n s k = .next t) :
    (∃ f m, t = takeFault f m s ∧ Raises i s f m) ∨ Completed s t := by
  rcases withData_eq n s k with ⟨hd, he⟩ | ⟨-, he⟩ <;> rw [he] at h <;> cases h
  · refine .inl ⟨_, _, rfl, ?_, rfl⟩
    rw [hn]; exact dataOut_eq_true.1 hd
  · exact .inr hk

/-- The inversion of a key skip. -/
theorem skipOnKey_cases {i : Instr} {w : Bool} {x : Reg} {s t : State} (hi : i = .skp x ∨ i = .sknp x)
    (h : skipOnKey w x s = .next t) :
    (∃ f m, t = takeFault f m s ∧ Raises i s f m) ∨ Completed s t := by
  unfold skipOnKey at h
  split at h <;> cases h
  · rw [skipIf_eq_setPc]; exact .inr (.of_frame rfl)
  · next hk =>
    refine .inl ⟨_, _, rfl, ?_, x, hi, ?_, rfl⟩
    all_goals
      unfold keyIndexOf at hk
      split at hk
      · cases hk
      · split at hk
        · cases hk
        · first | assumption | omega

/-- An instruction raises the fault of its rule on the state before it, or completes. -/
theorem exec_cases {i : Instr} {s t : State} (h : exec i s = .next t) :
    (∃ f n, t = takeFault f n s ∧ Raises i s f n) ∨ Completed s t := by
  cases i with
  | drw x y n => exact withData_cases (i := .drw x y n) rfl ⟨rfl, rfl, rfl, rfl, id⟩ h
  | ldB x =>
    exact withData_cases (i := .ldB x) rfl ⟨rfl, rfl, rfl, rfl, wf_storeBytes _ _⟩ h
  | storeRegs x =>
    exact withData_cases (i := .storeRegs x) rfl ⟨rfl, rfl, rfl, rfl, wf_storeBytes _ _⟩ h
  | loadRegs x =>
    refine withData_cases (i := .loadRegs x) rfl (.of_frame ?_) h
    exact congrArg (fun u : State => { u with pc := s.pc }) (loadFromI_frame (x.toNat + 1) s.advance)
  | skp x => exact skipOnKey_cases (.inl rfl) h
  | sknp x => exact skipOnKey_cases (.inr rfl) h
  | ldVxK x =>
    have h : execLdVxK x s = _ := h
    unfold execLdVxK at h
    split at h <;> cases h <;> exact .inr (.of_frame rfl)
  | call nnn =>
    have h : Host.Outcome.next (pushAndJump (addrWord nnn) s) = _ := h
    rcases pushAndJump_eq (addrWord nnn) s with ⟨h16, he⟩ | ⟨_, he⟩ <;> rw [he] at h <;> cases h
    · exact .inl ⟨_, _, rfl, ⟨nnn, rfl⟩, h16, rfl⟩
    · exact .inr ⟨rfl, rfl, rfl, rfl, id⟩
  | ret =>
    have h : Host.Outcome.next (popAndJump s) = _ := h
    rcases popAndJump_eq s with ⟨h0, he⟩ | ⟨_, he⟩ <;> rw [he] at h <;> cases h
    · exact .inl ⟨_, _, rfl, rfl, h0, rfl⟩
    · exact .inr ⟨rfl, rfl, rfl, rfl, id⟩
  | seByte x nn => cases h; rw [skipIf_eq_setPc]; exact .inr (.of_frame rfl)
  | sneByte x nn => cases h; rw [skipIf_eq_setPc]; exact .inr (.of_frame rfl)
  | seReg x y => cases h; rw [skipIf_eq_setPc]; exact .inr (.of_frame rfl)
  | addReg x y | subReg x y | subnReg x y | shr x y | shl x y =>
    cases h
    exact .inr (.of_frame
      (congrArg (fun u : State => { u with pc := s.pc }) (writeResultAndFlag_frame x _ _ s.advance)))
  | _ => cases h; exact .inr ⟨rfl, rfl, rfl, rfl, id⟩

end Sys2Proof.Machine
end

