-- ==== Sys2Proof/Laws/PerInstr.lean ====
section
/-! SUPPORT. Per-instruction law TableRow: the word of an instruction lies in the row of the opcode map
(spec/30_encoding.md R74) that carries its mnemonic. -/

namespace Sys2Proof.Laws

/-- The encoder's word matches the mask and match columns of the instruction's own row (R74). -/
def TableRow.Statement (i : Instr) : Prop := encode i &&& rowMask i = rowMatch i

theorem TableRow.cls : TableRow.Statement .cls :=
  formatI_selMask _ _ _
theorem TableRow.ret : TableRow.Statement .ret :=
  formatI_selMask _ _ _
theorem TableRow.jp (nnn : Addr12) : TableRow.Statement (.jp nnn) :=
  formatA_mask _ _
theorem TableRow.call (nnn : Addr12) : TableRow.Statement (.call nnn) :=
  formatA_mask _ _
theorem TableRow.seByte (x : Reg) (nn : Byte) : TableRow.Statement (.seByte x nn) :=
  formatI_mask _ _ _
theorem TableRow.sneByte (x : Reg) (nn : Byte) : TableRow.Statement (.sneByte x nn) :=
  formatI_mask _ _ _
theorem TableRow.seReg (x : Reg) (y : Reg) : TableRow.Statement (.seReg x y) :=
  formatR_selMask _ _ _ _
theorem TableRow.ldByte (x : Reg) (nn : Byte) : TableRow.Statement (.ldByte x nn) :=
  formatI_mask _ _ _
theorem TableRow.addByte (x : Reg) (nn : Byte) : TableRow.Statement (.addByte x nn) :=
  formatI_mask _ _ _
theorem TableRow.ldReg (x : Reg) (y : Reg) : TableRow.Statement (.ldReg x y) :=
  formatR_selMask _ _ _ _
theorem TableRow.orReg (x : Reg) (y : Reg) : TableRow.Statement (.orReg x y) :=
  formatR_selMask _ _ _ _
theorem TableRow.andReg (x : Reg) (y : Reg) : TableRow.Statement (.andReg x y) :=
  formatR_selMask _ _ _ _
theorem TableRow.xorReg (x : Reg) (y : Reg) : TableRow.Statement (.xorReg x y) :=
  formatR_selMask _ _ _ _
theorem TableRow.addReg (x : Reg) (y : Reg) : TableRow.Statement (.addReg x y) :=
  formatR_selMask _ _ _ _
theorem TableRow.subReg (x : Reg) (y : Reg) : TableRow.Statement (.subReg x y) :=
  formatR_selMask _ _ _ _
theorem TableRow.shr (x : Reg) (y : Reg) : TableRow.Statement (.shr x y) :=
  formatR_selMask _ _ _ _
theorem TableRow.subnReg (x : Reg) (y : Reg) : TableRow.Statement (.subnReg x y) :=
  formatR_selMask _ _ _ _
theorem TableRow.shl (x : Reg) (y : Reg) : TableRow.Statement (.shl x y) :=
  formatR_selMask _ _ _ _
theorem TableRow.ldI (nnn : Addr12) : TableRow.Statement (.ldI nnn) :=
  formatA_mask _ _
theorem TableRow.jpV0 (nnn : Addr12) : TableRow.Statement (.jpV0 nnn) :=
  formatA_mask _ _
theorem TableRow.rnd (x : Reg) (nn : Byte) : TableRow.Statement (.rnd x nn) :=
  formatI_mask _ _ _
theorem TableRow.drw (x : Reg) (y : Reg) (n : Nibble) : TableRow.Statement (.drw x y n) :=
  formatR_mask _ _ _ _
theorem TableRow.skp (x : Reg) : TableRow.Statement (.skp x) :=
  formatI_selMask _ _ _
theorem TableRow.sknp (x : Reg) : TableRow.Statement (.sknp x) :=
  formatI_selMask _ _ _
theorem TableRow.ldVxDt (x : Reg) : TableRow.Statement (.ldVxDt x) :=
  formatI_selMask _ _ _
theorem TableRow.ldVxK (x : Reg) : TableRow.Statement (.ldVxK x) :=
  formatI_selMask _ _ _
theorem TableRow.ldDtVx (x : Reg) : TableRow.Statement (.ldDtVx x) :=
  formatI_selMask _ _ _
theorem TableRow.ldStVx (x : Reg) : TableRow.Statement (.ldStVx x) :=
  formatI_selMask _ _ _
theorem TableRow.addI (x : Reg) : TableRow.Statement (.addI x) :=
  formatI_selMask _ _ _
theorem TableRow.ldF (x : Reg) : TableRow.Statement (.ldF x) :=
  formatI_selMask _ _ _
theorem TableRow.ldB (x : Reg) : TableRow.Statement (.ldB x) :=
  formatI_selMask _ _ _
theorem TableRow.storeRegs (x : Reg) : TableRow.Statement (.storeRegs x) :=
  formatI_selMask _ _ _
theorem TableRow.loadRegs (x : Reg) : TableRow.Statement (.loadRegs x) :=
  formatI_selMask _ _ _

end Sys2Proof.Laws
end

