-- ==== Sys2Proof/Tests/Slice0.lean ====
section
/-! SUPPORT. Tests. Expected values come from spec/ alone: the vectors of spec/95_test_vectors.md (their ids are
named), the words from the encodings of spec/30_encoding.md R71, R73 and R74 written out bit by bit. The witnesses at
the end meet the hypotheses of the statements in Certificates/Slice0/Obligations.lean, clause by clause. -/

namespace Sys2Proof.Tests

open Sys2Proof Sys2Proof.Machine

/-! ## Helpers: small states -/

/-- The state after one step from `s` with the word `w` placed where the step fetches. -/
def run (s : State) (w : Nat) : State :=
  match step (s.withFetchWord 16 w) with
  | .next t => t
  | .fault _ => s
  | .refused _ => s

/-- Reset, but for the listed registers. -/
def regs (l : List (Reg × Byte)) : State := l.foldl (fun s p => s.setReg p.1 p.2) State.reset

/-- `s` with bytes of memory written from `a` up. -/
def poke (a : Nat) (bs : List Byte) (s : State) : State := { s with mem := storeBytes s.mem a bs }

/-- A framebuffer with exactly the listed cells lit (row, column), each listed once. -/
def litCells (l : List Pixel) : Screen := l.foldl Screen.flip Screen.clear

/-- The keys listed are down. -/
def keysDown (l : List (Fin 16)) : Keys := l.foldl (fun k j => k.set j.val true) (Vector.replicate 16 false)

/-- `s` under other parameters. -/
def under (c : Config) (s : State) : State := { s with cfg := c }

/-- `s` with `I`. -/
def withI (a : Word16) (s : State) : State := s.setI a

/-- `s` with the two timers. -/
def timers (d t : Byte) (s : State) : State := { s with dt := d, st := t }

/-! ## WellFormed: one ill-formed term for each check -/

/-- R7 `P_ENC_LDF10`: 0x29 is already `LD F, Vx`. -/
theorem test_wf_refuses_used_selector : Config.wf { encLdF10 := some 0x29 } = false := by decide

/-- R7 `P_PRELOAD`: the platform image ends at 0x1FF. -/
theorem test_wf_refuses_long_preload : Config.wf { preload := List.replicate 0x201 1 } = false := by
  simp only [Config.wf, Config.selectorOk, Config.preloadOk, List.length_replicate]; decide

/-- R63: an image of 3585 bytes does not fit. -/
theorem test_wf_refuses_long_image : imageOk (List.replicate 3585 0) = false := by
  simp only [imageOk, List.length_replicate]; decide

theorem test_wf_accepts_defaults : Config.wf Config.default = true ∧ Config.wf { encLdF10 := some 0x30 } = true := by
  decide

/-! ## Decoding: each row's word written out from its pattern in R74 (class, X, Y, N or selector) -/

theorem test_decode_cls : decode none 0b0000000011100000 = .instr .cls := by decide
theorem test_decode_ret : decode none 0b0000000011101110 = .instr .ret := by decide
theorem test_decode_jp : decode none 0b0001001000110100 = .instr (.jp 0x234) := by decide
theorem test_decode_call : decode none 0b0010001000110100 = .instr (.call 0x234) := by decide
theorem test_decode_seByte : decode none 0b0011000100100011 = .instr (.seByte 0x1 0x23) := by decide
theorem test_decode_sneByte : decode none 0b0100000100100011 = .instr (.sneByte 0x1 0x23) := by decide
theorem test_decode_seReg : decode none 0b0101000100100000 = .instr (.seReg 0x1 0x2) := by decide
theorem test_decode_ldByte : decode none 0b0110101000101100 = .instr (.ldByte 0xA 0x2C) := by decide
theorem test_decode_addByte : decode none 0b0111001100000101 = .instr (.addByte 0x3 0x05) := by decide
theorem test_decode_ldReg : decode none 0b1000000100100000 = .instr (.ldReg 0x1 0x2) := by decide
theorem test_decode_orReg : decode none 0b1000000100100001 = .instr (.orReg 0x1 0x2) := by decide
theorem test_decode_andReg : decode none 0b1000000100100010 = .instr (.andReg 0x1 0x2) := by decide
theorem test_decode_xorReg : decode none 0b1000000100100011 = .instr (.xorReg 0x1 0x2) := by decide
theorem test_decode_addReg : decode none 0b1000000100100100 = .instr (.addReg 0x1 0x2) := by decide
theorem test_decode_subReg : decode none 0b1000000100100101 = .instr (.subReg 0x1 0x2) := by decide
theorem test_decode_shr : decode none 0b1000000100100110 = .instr (.shr 0x1 0x2) := by decide
theorem test_decode_subnReg : decode none 0b1000000100100111 = .instr (.subnReg 0x1 0x2) := by decide
theorem test_decode_shl : decode none 0b1000000100101110 = .instr (.shl 0x1 0x2) := by decide
theorem test_decode_ldI : decode none 0b1010001011110000 = .instr (.ldI 0x2F0) := by decide
theorem test_decode_jpV0 : decode none 0b1011001100000000 = .instr (.jpV0 0x300) := by decide
theorem test_decode_rnd : decode none 0b1100000100001111 = .instr (.rnd 0x1 0x0F) := by decide
theorem test_decode_drw : decode none 0b1101000000010010 = .instr (.drw 0x0 0x1 0x2) := by decide
theorem test_decode_skp : decode none 0b1110001010011110 = .instr (.skp 0x2) := by decide
theorem test_decode_sknp : decode none 0b1110001010100001 = .instr (.sknp 0x2) := by decide
theorem test_decode_ldVxDt : decode none 0b1111001100000111 = .instr (.ldVxDt 0x3) := by decide
theorem test_decode_ldVxK : decode none 0b1111010100001010 = .instr (.ldVxK 0x5) := by decide
theorem test_decode_ldDtVx : decode none 0b1111000100010101 = .instr (.ldDtVx 0x1) := by decide
theorem test_decode_ldStVx : decode none 0b1111001000011000 = .instr (.ldStVx 0x2) := by decide
theorem test_decode_addI : decode none 0b1111000100011110 = .instr (.addI 0x1) := by decide
theorem test_decode_ldF : decode none 0b1111001100101001 = .instr (.ldF 0x3) := by decide
theorem test_decode_ldB : decode none 0b1111001000110011 = .instr (.ldB 0x2) := by decide
theorem test_decode_storeRegs : decode none 0b1111001001010101 = .instr (.storeRegs 0x2) := by decide
theorem test_decode_loadRegs : decode none 0b1111000101100101 = .instr (.loadRegs 0x1) := by decide

/-- Section 2.8: unrecognized words beside recognized ones. -/
theorem test_decode_unrecognized :
    decode none 0x00E1 = .unrecognized 0x00E1 ∧ decode none 0x500F = .unrecognized 0x500F ∧
    decode none 0x800D = .unrecognized 0x800D ∧ decode none 0x800F = .unrecognized 0x800F ∧
    decode none 0xE09F = .unrecognized 0xE09F ∧ decode none 0xE1A0 = .unrecognized 0xE1A0 ∧
    decode none 0xF030 = .unrecognized 0xF030 ∧ decode none 0xF085 = .unrecognized 0xF085 := by decide

/-- R143: the selector decodes only where it is given. -/
theorem test_decode_ldF10 :
    decode (some 0x30) 0b1111011100110000 = .ldF10 0x7 ∧ decode (some 0x31) 0xF730 = .unrecognized 0xF730 := by decide

/-! ## One step: control flow (section 2.1) -/

/-- CF2: the second nibble is ignored, the top entry is `STK[1]`. -/
theorem test_ret :
    let s := run { State.reset with pc := 0x300, sp := 2, stk := (State.reset.stk.set 0 0x202).set 1 0x400 } 0x0AEE
    s.pc = 0x400 ∧ s.sp = 1 ∧ s.stk[1] = 0x400 := by decide
/-- CF3. -/
theorem test_ret_underflow :
    let s := run State.reset 0x00EE
    s.pc = 0x200 ∧ s.status.halt = true ∧ s.status.cause = 3 ∧ s.status.faultPc = 0x200 ∧
      s.status.faultOp = 0x00EE ∧ s.status.faultInfo = 0 := by decide
/-- CF4. -/
theorem test_jp : (run State.reset 0x1234).pc = 0x234 := by decide
/-- CF9: the pushed value is the 16-bit advanced pc. -/
theorem test_call :
    let s := run { State.reset with pc := 0xFFE } 0x2300
    s.pc = 0x300 ∧ s.sp = 1 ∧ s.stk[0] = 0x1000 := by decide
/-- CF11. -/
theorem test_call_overflow :
    let s := run { State.reset with sp := 16 } 0x2234
    s.pc = 0x200 ∧ s.sp = 16 ∧ s.status.cause = 2 ∧ s.status.faultOp = 0x2234 ∧ s.status.faultInfo = 0x10 := by decide
/-- CF12, CF13. -/
theorem test_seByte :
    (run (regs [(1, 0x23)]) 0x3123).pc = 0x204 ∧ (run (regs [(1, 0x22)]) 0x3123).pc = 0x202 := by decide
/-- CF15, CF16. -/
theorem test_sneByte :
    (run (regs [(1, 0x23)]) 0x4123).pc = 0x202 ∧ (run (regs []) 0x4123).pc = 0x204 := by decide
/-- CF17, CF18. -/
theorem test_seReg :
    (run (regs [(1, 7), (2, 7)]) 0x5120).pc = 0x204 ∧ (run (regs [(1, 7), (2, 8)]) 0x5120).pc = 0x202 := by decide
/-- CF22, CF23. -/
theorem test_jpV0 :
    (run (regs [(0, 0xFF)]) 0xBFFF).pc = 0x10FE ∧ (run (regs [(0, 2), (1, 0x77)]) 0xB1FE).pc = 0x200 := by decide

/-! ## One step: arithmetic and logic (section 2.2) -/

/-- AL2. -/
theorem test_ldByte : let s := run State.reset 0x6FFF; s.pc = 0x202 ∧ s.reg 15 = 0xFF := by decide
/-- AL3: wraps, `VF` not written. -/
theorem test_addByte : let s := run (regs [(3, 0xFE)]) 0x7305; s.reg 3 = 0x03 ∧ s.reg 15 = 0 := by decide
/-- AL6. -/
theorem test_ldReg : (run (regs [(1, 0x11), (2, 0x5A)]) 0x8120).reg 1 = 0x5A := by decide
/-- AL8. -/
theorem test_orReg :
    let s := run (regs [(1, 0xF0), (2, 0x0F), (15, 0x55)]) 0x8121; s.reg 1 = 0xFF ∧ s.reg 15 = 0x55 := by decide
/-- AL9. -/
theorem test_andReg :
    let s := run (regs [(1, 0xF0), (2, 0x3C), (15, 0x55)]) 0x8122; s.reg 1 = 0x30 ∧ s.reg 15 = 0x55 := by decide
/-- AL10. -/
theorem test_xorReg :
    let s := run (regs [(1, 0xF0), (2, 0x3C), (15, 0x55)]) 0x8123; s.reg 1 = 0xCC ∧ s.reg 15 = 0x55 := by decide
/-- AL15, AL17: no carry at exactly 255; the old `VF` is the addend. -/
theorem test_addReg :
    (let s := run (regs [(1, 0x80), (2, 0x7F), (15, 1)]) 0x8124; s.reg 1 = 0xFF ∧ s.reg 15 = 0) ∧
    (let s := run (regs [(1, 0x10), (15, 1)]) 0x81F4; s.reg 1 = 0x11 ∧ s.reg 15 = 0) := by decide
/-- AL18, AL19: `X = 15` under both orders. -/
theorem test_addReg_vf :
    (run (regs [(15, 0xF0), (1, 0x20)]) 0x8F14).reg 15 = 0x01 ∧
    (run (under { vfOrder := .flagFirst } (regs [(15, 0xF0), (1, 0x20)])) 0x8F14).reg 15 = 0x10 := by decide
/-- AL22, AL24. -/
theorem test_subReg :
    (let s := run (regs [(1, 0x10), (2, 0x20)]) 0x8125; s.reg 1 = 0xF0 ∧ s.reg 15 = 0) ∧
    (let s := run (regs [(1, 5), (2, 5)]) 0x8125; s.reg 1 = 0 ∧ s.reg 15 = 1) := by decide
/-- AL27, AL28. -/
theorem test_subReg_vf :
    (run (regs [(15, 5), (1, 3)]) 0x8F15).reg 15 = 1 ∧
    (run (under { vfOrder := .flagFirst } (regs [(15, 5), (1, 3)])) 0x8F15).reg 15 = 2 := by decide
/-- AL32, AL33: the shifted register is a parameter. -/
theorem test_shr :
    (let s := run (regs [(1, 5), (2, 8)]) 0x8126; s.reg 1 = 2 ∧ s.reg 15 = 1) ∧
    (let s := run (under { shiftSrc := .vy } (regs [(1, 5), (2, 8)])) 0x8126; s.reg 1 = 4 ∧ s.reg 15 = 0) := by decide
/-- AL34, AL35. -/
theorem test_shr_vf :
    (run (regs [(15, 3)]) 0x8F06).reg 15 = 1 ∧
    (run (under { vfOrder := .flagFirst } (regs [(15, 2)])) 0x8F06).reg 15 = 1 := by decide
/-- AL36, AL37. -/
theorem test_subnReg :
    (let s := run (regs [(1, 0x10), (2, 0x20)]) 0x8127; s.reg 1 = 0x10 ∧ s.reg 15 = 1) ∧
    (let s := run (regs [(1, 0x20), (2, 0x10)]) 0x8127; s.reg 1 = 0xF0 ∧ s.reg 15 = 0) := by decide
/-- AL40, AL42. -/
theorem test_shl :
    (let s := run (regs [(1, 0x7F), (15, 1)]) 0x810E; s.reg 1 = 0xFE ∧ s.reg 15 = 0) ∧
    (let s := run (under { shiftSrc := .vy } (regs [(1, 1), (2, 0xC0)])) 0x812E; s.reg 1 = 0x80 ∧ s.reg 15 = 1) := by
  decide
/-- AL43, AL44. -/
theorem test_shl_vf :
    (run (regs [(15, 0x80)]) 0x8FFE).reg 15 = 1 ∧
    (run (under { vfOrder := .flagFirst } (regs [(15, 0x80)])) 0x8FFE).reg 15 = 0 := by decide
/-- AL46, with the random byte 0xA7 substituted by a harness (R7 `rnd`). -/
theorem test_rnd : (run (under { rnd := .harness [0xA7] } (regs [(1, 0x99)])) 0xC10F).reg 1 = 0x07 := by decide
/-- AL45: selector 8 is unrecognized. -/
theorem test_unrecognized :
    let s := run (timers 2 2 (regs [(1, 1), (2, 2)])) 0x8128
    s.pc = 0x202 ∧ s.reg 1 = 1 ∧ s.dt = 1 ∧ s.st = 1 ∧ s.status.derr = true ∧ s.status.derrPc = 0x200 ∧
      s.status.derrOp = 0x8128 := by decide

/-! ## One step: index register and memory (section 2.3) -/

/-- IM2. -/
theorem test_ldI : (run (withI 0x1234 State.reset) 0xAFFF).i = 0x0FFF := by decide
/-- IM3, IM4. -/
theorem test_addI :
    (let s := run (withI 0x0FFE (regs [(1, 5)])) 0xF11E; s.i = 0x1003 ∧ s.reg 15 = 0) ∧
    (run (withI 0xFFFF (regs [(1, 2)])) 0xF11E).i = 0x0001 := by decide
/-- IM7, IM8: not masked to a digit. -/
theorem test_ldF :
    (run (regs [(3, 0x10)]) 0xF329).i = 0x0050 ∧ (run (regs [(3, 0xFF)]) 0xF329).i = 0x04FB := by decide
/-- R143 with the selector 0x30: 255 times 10. -/
theorem test_ldF10 : (run (under { encLdF10 := some 0x30 } (regs [(3, 0xFF)])) 0xF330).i = 0x09F6 := by decide
/-- IM10. -/
theorem test_ldB :
    let s := run (withI 0x300 (regs [(2, 0x9C)])) 0xF233
    s.memBytes 0x300 3 = [1, 5, 6] ∧ s.i = 0x300 := by decide
/-- IM16, IM18. -/
theorem test_ldB_bounds :
    (let s := run (withI 0xFFE (regs [(0, 0x7B)])) 0xF033
     s.pc = 0x200 ∧ s.memBytes 0xFFE 2 = [0, 0] ∧ s.status.cause = 4 ∧ s.status.faultInfo = 0x1000) ∧
    (let s := run (withI 0xFFE (under { oob := .wrap } (regs [(0, 0x7B)]))) 0xF033
     s.memBytes 0xFFE 3 = [1, 2, 3] ∧ s.mem.read 0 = 3) := by decide
/-- IM19. -/
theorem test_storeRegs :
    let s := run (withI 0x400 (regs [(0, 0x11), (1, 0x22), (2, 0x33), (3, 0x44)])) 0xF255
    s.memBytes 0x400 4 = [0x11, 0x22, 0x33, 0] ∧ s.i = 0x400 := by decide
/-- IM22 with IM17's recorded value: nothing stored. -/
theorem test_storeRegs_bounds :
    let s := run (withI 0x0FF1 (regs [(0, 0x10)])) 0xFF55
    s.mem.read 0xFF1 = 0 ∧ s.status.cause = 4 ∧ s.status.faultOp = 0xFF55 ∧ s.status.faultInfo = 0x1000 := by decide
/-- IM24. -/
theorem test_loadRegs :
    let s := run (withI 0x300 (poke 0x300 [0xAB, 0xCD, 0xEF] (regs [(2, 0x55)]))) 0xF165
    s.reg 0 = 0xAB ∧ s.reg 1 = 0xCD ∧ s.reg 2 = 0x55 ∧ s.i = 0x300 := by decide
/-- IM27, IM28. -/
theorem test_loadRegs_bounds :
    (let s := run (withI 0xFFF (poke 0xFFF [0x5A] State.reset)) 0xF165
     s.reg 0 = 0 ∧ s.status.cause = 4 ∧ s.status.faultInfo = 0x1000) ∧
    (let s := run (withI 0xFFF (under { oob := .wrap } (poke 0 [0xA5] (poke 0xFFF [0x5A] State.reset)))) 0xF165
     s.reg 0 = 0x5A ∧ s.reg 1 = 0xA5) := by decide

/-! ## One step: display (section 2.4; a pixel is (row, column)) -/

/-- DP2. -/
theorem test_cls :
    let s := run { regs [(15, 1)] with fb := litCells [(0, 0), (31, 63)] } 0x07E0
    s.fb = Screen.clear ∧ s.reg 15 = 1 := by decide
/-- DP9: pixels wrap in both directions. -/
theorem test_drw_wrap :
    let s := run (withI 0x300 (poke 0x300 [0xC0, 0x80] (regs [(0, 0xFF), (1, 0xFF)]))) 0xD012
    s.fb = litCells [(31, 63), (31, 0), (0, 63)] ∧ s.reg 15 = 0 := by decide
/-- DP6, DP10: a collision; clipping. -/
theorem test_drw_collide_and_clip :
    (let s := run { withI 0x300 (poke 0x300 [0xC0] State.reset) with fb := litCells [(0, 1)] } 0xD011
     s.fb = litCells [(0, 0)] ∧ s.reg 15 = 1) ∧
    (run (withI 0x300 (under { drawEdge := .clip } (poke 0x300 [0xC0, 0x80] (regs [(0, 0xFF), (1, 0xFF)])))) 0xD012).fb
      = litCells [(31, 63)] := by decide

/-! ## One step: keys and timers (section 2.5) -/

/-- TK13, TK16. -/
theorem test_skp :
    (run { regs [(2, 7)] with key := keysDown [7] } 0xE29E).pc = 0x204 ∧
    (run (under { keyIndex := .mask4 } { regs [(2, 0x17)] with key := keysDown [7] }) 0xE29E).pc = 0x204 := by decide
/-- TK15. -/
theorem test_skp_index :
    let s := run { regs [(2, 0x10)] with key := keysDown [0] } 0xE29E
    s.pc = 0x200 ∧ s.status.cause = 6 ∧ s.status.faultInfo = 0x10 := by decide
/-- TK17, TK20. -/
theorem test_sknp :
    (run (regs [(2, 7)]) 0xE2A1).pc = 0x204 ∧
    (run { regs [(0, 0xF)] with key := keysDown [0xF] } 0xE0A1).pc = 0x202 := by decide
/-- TK19. -/
theorem test_sknp_index :
    let s := run (regs [(2, 0xFF)]) 0xE2A1
    s.pc = 0x200 ∧ s.status.cause = 6 ∧ s.status.faultInfo = 0xFF := by decide
/-- TK6: reads before the decrement. -/
theorem test_ldVxDt : let s := run (timers 16 0 State.reset) 0xF307; s.reg 3 = 16 ∧ s.dt = 15 := by decide
/-- TK22: no key, `pc` stays, the timer ticks. -/
theorem test_ldVxK_waits :
    let s := run (timers 3 0 (regs [(5, 0x77)])) 0xF50A; s.pc = 0x200 ∧ s.reg 5 = 0x77 ∧ s.dt = 2 := by decide
/-- TK23: the lowest index wins. -/
theorem test_ldVxK :
    let s := run { regs [(5, 0x77)] with key := keysDown [9, 3] } 0xF50A; s.pc = 0x202 ∧ s.reg 5 = 3 := by decide
/-- TK1, TK3. -/
theorem test_ldDtVx :
    (run (regs [(1, 0x3C)]) 0xF115).dt = 59 ∧ (run (timers 9 0 State.reset) 0xF115).dt = 0 := by decide
/-- TK4. -/
theorem test_ldStVx : let s := run (regs [(2, 2)]) 0xF218; s.st = 1 ∧ tone s = true := by decide

/-! ## The step (sections 2.6, 2.7) -/

/-- FT5, FT6: the fetch under `P_OOB = wrap`; `pc` is not reduced modulo 4096. -/
theorem test_fetch_wraps :
    (let s := run { under { oob := .wrap } State.reset with pc := 0xFFF } 0x6A05
     s.pc = 0x1001 ∧ s.reg 0xA = 5 ∧ s.mem.read 0xFFF = 0x6A ∧ s.mem.read 0 = 5) ∧
    (let s := run { under { oob := .wrap } State.reset with pc := 0xFFFE } 0x6A07
     s.pc = 0 ∧ s.reg 0xA = 7) := by decide
/-- FT1: nothing but `STATUS` changes. -/
theorem test_fetch_bounds :
    ∃ t, step (timers 4 0 { State.reset with pc := 0xFFF }) = .next t ∧ t.pc = 0xFFF ∧ t.dt = 4 ∧
      t.status.cause = 5 ∧ t.status.faultPc = 0xFFF ∧ t.status.faultOp = 0 ∧ t.status.faultInfo = 0x1000 :=
  ⟨_, rfl, by decide⟩

/-! ## Witnesses: states and operands that meet the hypotheses of the statements, one for each clause -/

/-- `exec` answers a next state that satisfies `P`. -/
def Answers (i : Instr) (s : State) (P : State → Prop) : Prop := ∃ t, exec i s = .next t ∧ P t

/-- `step` answers a next state that satisfies `P`. -/
def Steps (s : State) (P : State → Prop) : Prop := ∃ t, step s = .next t ∧ P t

/-- `s` with the word placed at its `pc`. -/
def placed (w : Word16) (s : State) : State := s.placeWord s.pc.toNat w

/-- DecodeDropsOnlyIgnoredBits: a row with an ignored nibble, and one without. -/
theorem witness_decodeDrops : decode none 0x0FE0 = .instr .cls ∧ decode none 0xFF65 = .instr (.loadRegs 0xF) := by decide

/-- LdF10OnlyWhereItsSelectorIsGiven: a selector next to one of the nine, the greatest register. -/
theorem witness_ldF10 :
    let s := placed 0xFF64 (under { encLdF10 := some 0x64 } State.reset)
    s.cfg.encLdF10 = some 0x64 ∧ 0x64 ∉ classFSelectors ∧ s.status.halt = false ∧ s.fetchOut = false ∧
      s.bigEndian s.pc.toNat = 0xF#4 ++ 0xF#4 ++ 0x64#8 := by decide

/-- RetPopsReturnAddress: the greatest and the least `SP` that returns, and the empty stack. -/
theorem witness_ret :
    ({ State.reset with sp := 16 } : State).sp.val = (15 : Fin 16).val + 1 ∧
    ({ State.reset with sp := 1 } : State).sp.val = (0 : Fin 16).val + 1 ∧ State.reset.sp.val = 0 := by decide

/-- CallPushesReturnAddress: the least and the greatest `SP` that pushes, and the full stack. -/
theorem witness_call :
    State.reset.sp.val = (0 : Fin 16).val ∧ ({ State.reset with sp := 15 } : State).sp.val = (15 : Fin 16).val ∧
    ({ State.reset with sp := 16 } : State).sp.val = 16 := by decide

/-- SeByteSkipsIffEqual, SneByteSkipsIffDifferent: both cases. -/
theorem witness_skip_byte : (regs [(1, 0x23)]).reg 1 = 0x23 ∧ (regs [(1, 0x22)]).reg 1 ≠ 0x23 := by decide

/-- SeRegSkipsIffEqual: both cases, and a low nibble other than 0. -/
theorem witness_skip_reg :
    (regs [(1, 7), (2, 7)]).reg 1 = (regs [(1, 7), (2, 7)]).reg 2 ∧ (regs [(1, 7)]).reg 1 ≠ (regs [(1, 7)]).reg 2 ∧
    (0xF : Nibble) ≠ 0 := by decide

/-- CallThenReturnResumesAfterCall: the last free entry. -/
theorem witness_call_then_ret :
    ({ State.reset with sp := 15 } : State).sp.val < 16 ∧
    Answers (.call 0x300) { State.reset with sp := 15 } fun t =>
      ({ State.reset with sp := t.sp, stk := t.stk } : State).sp = t.sp ∧
      ∀ j : Fin 16, j.val < t.sp.val → ({ State.reset with sp := t.sp, stk := t.stk } : State).stk[j] = t.stk[j] :=
  ⟨by decide, _, rfl, rfl, fun _ _ => rfl⟩

/-- LdByteSetsRegister and the other single-destination statements: another register than the destination. -/
theorem witness_other_register : (14 : Reg) ≠ 15 ∧ (0 : Reg) ≠ 15 := by decide

/-- AddRegSetsSumAndCarry and the other flag statements: `X = 15` under each order, and a third register. -/
theorem witness_flag_order :
    ((15 : Reg) ≠ 15 ∨ (under { vfOrder := .flagFirst } State.reset).cfg.vfOrder = .flagFirst) ∧
    ((15 : Reg) ≠ 15 ∨ State.reset.cfg.vfOrder = .flagLast) ∧
    ((14 : Reg) ≠ 15 ∨ State.reset.cfg.vfOrder = .flagFirst) ∧ ((0 : Reg) ≠ 14 ∧ (0 : Reg) ≠ 15) := by decide

/-- ShrHalvesAndFlagsBit0, ShlDoublesAndFlagsBit7: the operand under either parameter. -/
theorem witness_shift_operand :
    (let s := regs [(1, 5), (2, 8)]
     (s.cfg.shiftSrc = .vx → 5 = s.reg 1) ∧ (s.cfg.shiftSrc = .vy → 5 = s.reg 2)) ∧
    (let s := under { shiftSrc := .vy } (regs [(1, 5), (2, 8)])
     (s.cfg.shiftSrc = .vx → 8 = s.reg 1) ∧ (s.cfg.shiftSrc = .vy → 8 = s.reg 2)) := by decide

/-- RndMasksRandomByte: a result with a bit set, from a harness's byte. -/
theorem witness_rnd_bit :
    Answers (.rnd 1 0x0F) (under { rnd := .harness [0xA7] } State.reset) fun t =>
      (t.reg 1).getLsbD (0 : Fin 8) = true := ⟨_, rfl, by decide⟩

/-- LdBStoresDigits: the greatest `I` that stores, the least that faults, and `P_OOB = wrap`. -/
theorem witness_ldB :
    (let s := withI 0xFFD State.reset; Memory.wf s.mem ∧ (s.cfg.oob = .fault → s.i.toNat + 2 ≤ 0xFFF)) ∧
    (let s := withI 0xFFE State.reset; s.cfg.oob = .fault ∧ s.i.toNat + 2 > 0xFFF) ∧
    (let s := withI 0xFFFF (under { oob := .wrap } State.reset)
     Memory.wf s.mem ∧ (s.cfg.oob = .fault → s.i.toNat + 2 ≤ 0xFFF)) := by decide

/-- LdBStoresDigits, the frame: an address next to the stored bytes. -/
theorem witness_ldB_frame : ∀ k, k ≤ 2 → (0x303 : Nat) ≠ (0x300 + k) % 4096 := by decide

/-- StoreRegsStoresBlock, LoadRegsLoadsBlock: `X = 15` at the greatest `I` and the least that faults; a register in
the block, one above it, and an address next to it. -/
theorem witness_block :
    (let s := withI 0xFF0 State.reset
     Memory.wf s.mem ∧ (s.cfg.oob = .fault → s.i.toNat + (15 : Reg).toNat ≤ 0xFFF)) ∧
    (let s := withI 0xFF1 State.reset; s.cfg.oob = .fault ∧ s.i.toNat + (15 : Reg).toNat > 0xFFF) ∧
    (2 : Reg).toNat ≤ (2 : Reg).toNat ∧ (2 : Reg).toNat < (3 : Reg).toNat ∧
    (∀ k, k ≤ (2 : Reg).toNat → (0x303 : Nat) ≠ (0x300 + k) % 4096) := by decide

/-- DrwFlipsHitCellsAndFlagsCollision: no row at any `I`, the last byte of memory, one row too many. -/
theorem witness_drw_range :
    (let s := withI 0x1FFF State.reset
     s.cfg.oob = .fault → (0 : Nibble) = 0 ∨ s.i.toNat + (0 : Nibble).toNat - 1 ≤ 0xFFF) ∧
    (let s := withI 0xFFF State.reset
     s.cfg.oob = .fault → (1 : Nibble) = 0 ∨ s.i.toNat + (1 : Nibble).toNat - 1 ≤ 0xFFF) ∧
    (let s := withI 0xFFF State.reset
     s.cfg.oob = .fault ∧ (2 : Nibble) ≠ 0 ∧ s.i.toNat + (2 : Nibble).toNat - 1 > 0xFFF) := by decide

/-- A sprite of one pixel at the origin, and its cell lit. -/
def dot : State := { withI 0x300 (poke 0x300 [0x80] State.reset) with fb := litCells [(0, 0)] }

/-- DrwFlipsHitCellsAndFlagsCollision: a cell that is hit and lit, so the collision clause. -/
theorem witness_drw_hit : ∃ p, spriteHits dot 0 0 1 p ∧ dot.fb.lit p = true :=
  ⟨(0, 0), ⟨0, 0, by decide, by decide, by decide, show _ ∧ _ by decide⟩, by decide⟩

/-- The same, for the clause without collision: nothing is lit, so nothing hit is. -/
theorem witness_drw_no_collision :
    ¬ ∃ p, spriteHits { dot with fb := Screen.clear } 0 0 1 p ∧
      ({ dot with fb := Screen.clear } : State).fb.lit p = true := by
  rintro ⟨p, -, h⟩
  simp [Screen.lit, Screen.clear] at h

/-- The same, for the frame: a cell the sprite does not hit. -/
theorem witness_drw_miss : ¬ spriteHits dot 0 0 1 (31, 63) := by
  rintro ⟨r, c, hr, hc, -, h⟩
  have h : _ ∧ _ := h
  have hr : r < 1 := hr
  have h1 : 31 = (0 + r) % 32 := h.1
  omega

/-- DrawTwiceRestoresFramebuffer: a first draw, and the state it leaves for the second; the hit cell was unlit. -/
theorem witness_draw_twice :
    let s : State := { dot with fb := Screen.clear }
    s.inRange (1 : Nibble).toNat ∧ (∃ p, spriteHits s 0 0 1 p ∧ s.fb.lit p = false) ∧
    Answers (.drw 0 0 1) s fun t => t.mem = s.mem ∧ t.i = s.i ∧ t.cfg = s.cfg ∧ t.reg 0 = s.reg 0 :=
  ⟨fun _ => .inr (by decide), ⟨(0, 0), ⟨0, 0, by decide, by decide, by decide, show _ ∧ _ by decide⟩, by decide⟩,
    _, rfl, by decide⟩

/-- DrawTwiceRestoresFramebuffer, the clause `VF = 0`: the only cell the sprite hits was lit before the first draw. -/
theorem witness_draw_twice_no_cell_lit :
    dot.inRange (1 : Nibble).toNat ∧ (¬ ∃ p, spriteHits dot 0 0 1 p ∧ dot.fb.lit p = false) ∧
    Answers (.drw 0 0 1) dot fun t => t.mem = dot.mem ∧ t.i = dot.i ∧ t.cfg = dot.cfg ∧ t.reg 0 = dot.reg 0 := by
  refine ⟨fun _ => .inr (by decide), ?_, _, rfl, by decide⟩
  rintro ⟨⟨⟨y, hy⟩, ⟨x, hx⟩⟩, ⟨r, c, hr, hc, hb, hp⟩, hl⟩
  have hr : r < 1 := hr
  have hp : y = (0 + r) % 32 ∧ x = (0 + c) % 64 := hp
  have only : ∀ c < 8, (dot.mem.read ((dot.i.toNat + 0) % 4096)).getLsbD (7 - c) = true → c = 0 := by decide
  obtain rfl : r = 0 := by omega
  obtain rfl := only c hc hb
  obtain ⟨rfl, rfl⟩ := hp
  have lit : dot.fb.lit (0, 0) = true := by decide
  cases hl.symm.trans lit

/-- SecondDrawAlwaysCollides meets its hypotheses where the only hit cell was lit before, and there the second draw
leaves `VF = 0`: why the property read literally is expected to fail. -/
theorem witness_second_draw_without_collision :
    dot.cfg.drawEdge = .wrap ∧ dot.inRange (1 : Nibble).toNat ∧ (∃ p, spriteHits dot 0 0 1 p) ∧
    Answers (.drw 0 0 1) dot fun t =>
      t.mem = dot.mem ∧ t.i = dot.i ∧ t.cfg = dot.cfg ∧ t.reg 0 = dot.reg 0 ∧
      Answers (.drw 0 0 1) t fun w => w.reg 15 = 0 :=
  ⟨rfl, fun _ => .inr (by decide), ⟨(0, 0), ⟨0, 0, by decide, by decide, by decide, show _ ∧ _ by decide⟩⟩,
    _, rfl, rfl, rfl, rfl, rfl, _, rfl, by decide⟩

/-- SkpSkipsIffKeyPressed, SknpSkipsIffKeyNotPressed: the greatest index, the least that faults, the same under
`mask4`; a key down and a key up. -/
theorem witness_key_index :
    (regs [(2, 15)]).reg 2 = BitVec.ofNat 8 (15 : Fin 16).val ∧
    (let s := regs [(2, 16)]; s.cfg.keyIndex = .fault ∧ (s.reg 2).toNat > 15) ∧
    (let s := under { keyIndex := .mask4 } (regs [(2, 16)])
     s.cfg.keyIndex = .mask4 ∧ (s.reg 2).toNat > 15 ∧ (s.reg 2).toNat % 16 = (0 : Fin 16).val) ∧
    (keysDown [15])[(15 : Fin 16)] = true ∧ (keysDown [15])[(0 : Fin 16)] = false := by decide

/-- LdVxKTakesLowestKeyOrWaits: the highest key alone, and none. -/
theorem witness_key_wait :
    (let k := keysDown [15]; k[(15 : Fin 16)] = true ∧ ∀ j : Fin 16, j < 15 → k[j] = false) ∧
    (∀ j : Fin 16, State.reset.key[j] = false) := by decide

/-- StepRunsDecodedInstruction: the last fetchable address; an instruction that completes and one that faults. -/
theorem witness_step_runs :
    (let s := placed 0x6A01 { State.reset with pc := 0xFFE }
     s.status.halt = false ∧ (s.cfg.oob = .fault → s.pc.toNat + 1 ≤ 0xFFF) ∧
     decode s.cfg.encLdF10 (s.bigEndian s.pc.toNat) = .instr (.ldByte 0xA 0x01) ∧
     Answers (.ldByte 0xA 0x01) s fun t => t.status.halt = false) ∧
    (let s := placed 0x00EE State.reset
     decode s.cfg.encLdF10 (s.bigEndian s.pc.toNat) = .instr .ret ∧
     Answers .ret s fun t => t.status.halt = true) :=
  ⟨⟨by decide, by decide, by decide, _, rfl, by decide⟩, by decide, _, rfl, by decide⟩

/-- A halted engine. -/
def halted : State := { State.reset with status := { Status.reset with halt := true, cause := 3, faultPc := 0x200 } }

/-- HaltedEngineIgnoresStepRequests, with a host move that is not reset; the first clause of TimersCountDownOncePerCompletedStep. -/
theorem witness_halted :
    halted.status.halt = true ∧ (Steps halted fun t => t.status.halt = true) ∧ HostMove.keys halted.key ≠ .reset :=
  ⟨rfl, ⟨_, rfl, rfl⟩, by decide⟩

/-- FetchReadsBigEndianWordOrFaults: the least `pc` that faults, the greatest that does not, and one that does not
under `P_OOB = wrap`. -/
theorem witness_fetch :
    (let s : State := { State.reset with pc := 0xFFF }
     s.status.halt = false ∧ s.cfg.oob = .fault ∧ s.pc.toNat + 1 > 0xFFF) ∧
    (let s : State := { State.reset with pc := 0xFFE }
     s.status.halt = false ∧ ¬ (s.cfg.oob = .fault ∧ s.pc.toNat + 1 > 0xFFF)) ∧
    (let s : State := under { oob := .wrap } { State.reset with pc := 0xFFFF }
     s.status.halt = false ∧ ¬ (s.cfg.oob = .fault ∧ s.pc.toNat + 1 > 0xFFF)) := by decide

/-- UnrecognizedWordIsReportedNoOp: before and after a first report; DerrIsStickyWithFirstCapture, both clauses. -/
theorem witness_unrecognized :
    (let s := placed 0x9120 State.reset
     s.status.halt = false ∧ (s.cfg.oob = .fault → s.pc.toNat + 1 ≤ 0xFFF) ∧ s.bigEndian s.pc.toNat = 0x9120 ∧
     decode s.cfg.encLdF10 0x9120 = .unrecognized 0x9120 ∧ s.status.derr = false ∧
     Steps s fun t => t.status.derr = true) ∧
    (let s := placed 0x9120 { State.reset with status := { Status.reset with derr := true, derrOp := 0x0123 } }
     s.status.halt = false ∧ s.bigEndian s.pc.toNat = 0x9120 ∧ s.status.derr = true ∧ Steps s fun t => t.pc = 0x202) :=
  ⟨⟨by decide, by decide, by decide, by decide, by decide, _, rfl, by decide⟩,
    by decide, by decide, by decide, _, rfl, by decide⟩

/-- TimersCountDownOncePerCompletedStep: the steps that write or read a timer. -/
theorem witness_timers :
    (placed 0xF115 State.reset).fetches (.ldDtVx 1) ∧ (placed 0xF218 State.reset).fetches (.ldStVx 2) ∧
    (placed 0xF307 State.reset).fetches (.ldVxDt 3) ∧
    (Steps (placed 0xF307 State.reset) fun t => t.status.halt = false) :=
  ⟨by unfold State.fetches; decide, by unfold State.fetches; decide, by unfold State.fetches; decide, _, rfl,
    by decide⟩

/-- LdVxKTakesLowestKeyOrWaits: a step that waits. -/
theorem witness_key_wait_step :
    let s := placed 0xFF0A (timers 1 2 State.reset)
    s.fetches (.ldVxK 15) ∧ ∀ j : Fin 16, s.key[j] = false := by unfold State.fetches; decide

/-- The same, for a step that writes neither timer. -/
theorem witness_timers_untouched :
    (∀ x, ¬ (placed 0x8000 State.reset).fetches (.ldDtVx x)) ∧ (∀ x, ¬ (placed 0x8000 State.reset).fetches (.ldStVx x)) := by
  have h : decode none ((placed 0x8000 State.reset).wordAt 0x200) = .instr (.ldReg 0 0) := by decide
  constructor
  · intro x hx
    cases h.symm.trans hx.2.2
  · intro x hx
    cases h.symm.trans hx.2.2

/-- FatalFaultIsPreciseAndRecorded: a step into each of the five causes. -/
theorem witness_fatal_faults :
    (Steps (placed 0x2234 { State.reset with sp := 16 }) fun t => t.status.halt = true ∧ t.status.cause = 2) ∧
    (Steps (placed 0x00EE State.reset) fun t => t.status.halt = true ∧ t.status.cause = 3) ∧
    (Steps (placed 0xF033 (withI 0xFFE State.reset)) fun t => t.status.halt = true ∧ t.status.cause = 4) ∧
    (Steps { State.reset with pc := 0xFFF } fun t => t.status.halt = true ∧ t.status.cause = 5) ∧
    (Steps (placed 0xE29E (regs [(2, 16)])) fun t => t.status.halt = true ∧ t.status.cause = 6) :=
  ⟨⟨_, rfl, by decide⟩, ⟨_, rfl, by decide⟩, ⟨_, rfl, by decide⟩, ⟨_, rfl, by decide⟩, _, rfl, by decide⟩

/-- BootPlacesImageAtOrigin: the largest images that fit, and the least that does not. -/
theorem witness_boot :
    (List.replicate 0x200 (1 : Byte)).length ≤ 0x200 ∧ (List.replicate 3584 (1 : Byte)).length ≤ 3584 ∧
    3584 < (List.replicate 3585 (1 : Byte)).length := by
  simp only [List.length_replicate]; decide

/-- BootPlacesImageAtOrigin, its clauses about addresses: in and beyond a preload and an image of two bytes. -/
theorem witness_boot_addresses :
    (1 : Nat) < [0x12, 0x34].length ∧ [0xF0, 0x90].length ≤ 0x1FF ∧ 0x1FF < 0x200 ∧
    0x200 + [0x12, 0x34].length ≤ 0x202 := by decide

/-- StepKeepsInvariant: reset; a state whose memory lists bytes; a halted state. -/
theorem witness_inv :
    (Inv State.reset ∧ Steps State.reset fun t => t.status.halt = false) ∧
    (Inv (placed 0xF033 (withI 0xFFE State.reset)) ∧
      Steps (placed 0xF033 (withI 0xFFE State.reset)) fun t => t.status.halt = true) ∧ Inv halted :=
  ⟨⟨by decide, _, rfl, by decide⟩, ⟨by decide, _, rfl, by decide⟩, by decide⟩

/-- ResetBootAndHostMovesMeetInvariant: a boot that answers a state. -/
theorem witness_boot_state : ∃ s, boot Config.default [0x12, 0x34] (keysDown [3]) = some s ∧ Inv s :=
  ⟨_, rfl, by decide⟩

/-- StepKeepsPcRange: the greatest `pc`, and the greatest live stack entry on a full stack. -/
theorem witness_pc_range :
    let s : State := { State.reset with pc := 0x10FE, sp := 16, stk := Vector.replicate 16 0x1000 }
    s.cfg.oob = .fault ∧ PcInv s ∧ Steps s fun t => t.pc = 0x10FE := ⟨by decide, by decide, _, rfl, by decide⟩

/-- EachPartIsWrittenOnlyByItsInstructions: an instruction that does write each part. -/
theorem witness_parts_written :
    (Answers (.call 0x300) State.reset fun t => t.stk ≠ State.reset.stk ∧ t.sp ≠ State.reset.sp) ∧
    (Answers .cls dot fun t => t.fb ≠ dot.fb) ∧
    (Answers (.ldB 0) (regs [(0, 9)]) fun t => t.mem ≠ (regs [(0, 9)]).mem) ∧
    (Answers (.ldI 0x300) State.reset fun t => t.i ≠ State.reset.i) ∧
    (Answers (.ldDtVx 0) (regs [(0, 9)]) fun t => t.dt ≠ (regs [(0, 9)]).dt) ∧
    (Answers (.ldStVx 0) (regs [(0, 9)]) fun t => t.st ≠ (regs [(0, 9)]).st) :=
  ⟨⟨_, rfl, by decide⟩, ⟨_, rfl, by decide⟩, ⟨_, rfl, by decide⟩, ⟨_, rfl, by decide⟩, ⟨_, rfl, by decide⟩,
    _, rfl, by decide⟩

/-- OnlyFlagWritersTouchVf: a flag, both cases of a draw, and a load that does not name `VF`. -/
theorem witness_vf :
    (Answers (.addReg 1 2) (regs [(1, 0xFF), (2, 1)]) fun t => t.reg 15 = 1) ∧
    (dot.inRange (1 : Nibble).toNat ∧ Answers (.drw 0 0 1) dot fun t => t.reg 15 = 1) ∧
    (¬ (withI 0x1003 State.reset).inRange (1 : Nibble).toNat ∧
      Answers (.drw 0 0 1) (withI 0x1003 State.reset) fun t => t.reg 15 = 0) ∧
    ((14 : Reg) ≠ 15 ∧ Answers (.loadRegs 14) State.reset fun t => t.reg 15 = 0) :=
  ⟨⟨_, rfl, by decide⟩, ⟨fun _ => .inr (by decide), _, rfl, by decide⟩,
    ⟨fun h => absurd (h rfl) (by decide), _, rfl, by decide⟩, by decide, _, rfl, by decide⟩

/-- StoreIsSeenByNextFetch: `LD [I], V1` at 0x200 writes the word at 0x202. -/
theorem witness_store_seen :
    let s := placed 0xF155 (withI 0x202 (regs [(0, 0x12), (1, 0x02)]))
    Memory.wf s.mem ∧ s.fetches (.storeRegs 1) ∧ s.i.toNat + (1 : Reg).toNat ≤ 0xFFF ∧
    (0 : Reg).toNat < (1 : Reg).toNat ∧ (1 : Reg).toNat = (0 : Reg).toNat + 1 ∧
    Steps s fun t => t.pc.toNat = s.i.toNat + (0 : Reg).toNat ∧ t.wordAt t.pc.toNat = 0x1202 :=
  ⟨by decide, by unfold State.fetches; decide, by decide, by decide, by decide, _, rfl, by decide⟩

/-- SelfJumpOnlyCountsTimersDown: CF5, and the greatest address a self-jump can stand at. -/
theorem witness_self_jump :
    (placed 0x1200 State.reset).atSelfJump ∧ (placed 0x1FFE { State.reset with pc := 0xFFE }).atSelfJump ∧
    (placed 0x1200 State.reset).status.halt = false := by
  unfold State.atSelfJump; decide

end Sys2Proof.Tests
end

section
/-! State, reset, and whole-machine rules: what each instruction writes, the range of `pc`, the flag register, the
decode report, reset and the host's moves (spec/10_state.md). -/

namespace Sys2Proof.Machine

/-! ## Reset, boot and the host's moves (R32, R230, R232) -/

/-- Settles O50: each field of `State.resetOf` is a literal, and the host's reset is `State.resetOf` but for the
model's own draw index. -/
theorem resetLeavesListedValues : Obligations.ResetLeavesListedValues := by
  intro c
  refine ⟨fun x => ?_, rfl, rfl, rfl, fun j => ?_, rfl, rfl, lit_clear, fun j => ?_, fun _ => rfl, rfl, fun _ => rfl⟩
  · simp [State.reg, State.resetOf]
  · simp [State.resetOf]
  · simp [State.resetOf]

/-- A state with empty `STATUS` and canonical memory meets the invariant. -/
theorem inv_of_status_reset {s : State} (hm : Memory.wf s.mem) (hs : s.status = Status.reset) : Inv s := by
  refine ⟨hm, ⟨fun _ => ?_, fun hh => ?_⟩, fun _ => ?_⟩
  · rw [hs]; exact ⟨rfl, rfl, rfl, rfl⟩
  · rw [hs] at hh; cases hh
  · rw [hs]; exact ⟨rfl, rfl⟩

/-- A state with no live stack entry, `pc` at the load origin, meets the range of `pc`. -/
theorem pcInv_of_origin {s : State} (hpc : s.pc = 0x200) (hsp : s.sp = 0) : PcInv s := by
  refine ⟨by rw [hpc]; decide, fun j hj => ?_⟩
  rw [hsp] at hj
  exact absurd hj (Nat.not_lt_zero _)

theorem Memory.wf_nil : Memory.wf [] := by decide

/-- What boot answers is the reset state with the two images in memory and the keys set. -/
theorem boot_eq_some {c : Config} {image : List Byte} {keys : Keys} {s : State} (h : boot c image keys = some s) :
    s = { State.resetOf c with
      mem := storeBytes (storeBytes [] 0 c.preload) 0x200 image
      key := keys } := by
  unfold boot hostLoad at h
  split at h <;> cases h
  rfl

/-- Settles O53: reset and boot have empty `STATUS`, `pc` at the origin and an empty stack; memory is canonical
because storing bytes keeps it so. -/
theorem resetBootAndHostMovesMeetInvariant : Obligations.ResetBootAndHostMovesMeetInvariant := by
  refine ⟨inv_of_status_reset Memory.wf_nil rfl, pcInv_of_origin rfl rfl, fun c image keys s h => ?_, ?_, ?_⟩
  · obtain rfl := boot_eq_some h
    exact ⟨inv_of_status_reset (wf_storeBytes _ _ (wf_storeBytes _ _ Memory.wf_nil)) rfl, pcInv_of_origin rfl rfl⟩
  · intro m s h
    cases m with
    | reset => exact inv_of_status_reset Memory.wf_nil rfl
    | keys k => exact h
  · intro m s h
    cases m with
    | reset => exact pcInv_of_origin rfl rfl
    | keys k => exact h

/-! ## What an instruction writes, said once -/

/-- The instructions that write registers and nothing else but `pc`. -/
def writesOnlyRegs : Instr → Bool
  | .ldByte .. | .addByte .. | .ldReg .. | .orReg .. | .andReg .. | .xorReg .. | .addReg .. | .subReg ..
  | .shr .. | .subnReg .. | .shl .. | .rnd .. | .ldVxDt _ | .ldVxK _ | .loadRegs _ => true
  | _ => false

/-- Where an instruction at fetch address `p` that writes neither the stack nor any data can leave `pc`. -/
inductive PcTarget (p : Word16) : Word16 → Prop
  /-- The key wait (R173). -/
  | stay : PcTarget p p
  | next : PcTarget p (p + 2)
  /-- A skip taken (R107). -/
  | skip : PcTarget p (p + 2 + 2)
  /-- `JP addr` (R101). -/
  | jump (nnn : Addr12) : PcTarget p (addrWord nnn)
  /-- `JP V0, addr` (R106). -/
  | offset (nnn : Addr12) (b : Byte) : PcTarget p (addrWord nnn + byteWord b)

/-- The effect of an instruction by the part of the state it writes; `t = { s with … }` says that every part
not listed is as it was. -/
inductive Effect (s t : State) : Instr → Prop
  | fault {i} (f : FatalFault) (n : Nat) (ht : t = takeFault f n s) : Effect s t i
  | flow {i} (hpc : PcTarget s.pc t.pc) (ht : t = { s with pc := t.pc }) : Effect s t i
  | regs {i} (hi : writesOnlyRegs i) (ht : t = { s with v := t.v, pc := s.pc + 2 }) : Effect s t i
  | push (nnn : Addr12) (h : s.sp.val < 16)
      (ht : t = { s with
        stk := s.stk.set s.sp.val (s.pc + 2) h, sp := ⟨s.sp.val + 1, by omega⟩, pc := addrWord nnn }) :
      Effect s t (.call nnn)
  | pop (h : 0 < s.sp.val)
      (ht : t = { s with sp := ⟨s.sp.val - 1, by omega⟩, pc := s.stk[s.sp.val - 1]'(by omega) }) :
      Effect s t .ret
  | clear (ht : t = { s with fb := t.fb, pc := s.pc + 2 }) : Effect s t .cls
  | draw (x y : Reg) (n : Nibble) (ht : t = { s with v := t.v, fb := t.fb, pc := s.pc + 2 }) :
      Effect s t (.drw x y n)
  | store {i} (hi : ∃ x, i = .ldB x ∨ i = .storeRegs x) (ht : t = { s with mem := t.mem, pc := s.pc + 2 }) :
      Effect s t i
  | index {i} (hi : (∃ nnn, i = .ldI nnn) ∨ ∃ x, i = .addI x ∨ i = .ldF x)
      (ht : t = { s with i := t.i, pc := s.pc + 2 }) : Effect s t i
  | delay (x : Reg) (ht : t = { s with dt := t.dt, pc := s.pc + 2 }) : Effect s t (.ldDtVx x)
  | sound (x : Reg) (ht : t = { s with st := t.st, pc := s.pc + 2 }) : Effect s t (.ldStVx x)

/-- A change of registers alone, after the advance. -/
theorem Effect.of_regs_frame {i : Instr} {s t : State} (hi : writesOnlyRegs i)
    (h : { t with v := s.advance.v } = s.advance) : Effect s t i :=
  .regs hi (congrArg (fun u : State => { u with v := t.v }) h)

theorem Effect.of_skipIf (i : Instr) (s : State) (c : Bool) : Effect s (s.advance.skipIf c) i := by
  cases c
  · exact .flow .next rfl
  · exact .flow .skip rfl

/-- A memory instruction faults, or has the effect its body has after the advance. -/
theorem Effect.of_withData {i : Instr} {n : Nat} {s t : State} {k : State → State}
    (hk : Effect s (k s.advance) i) (h : withData n s k = .next t) : Effect s t i := by
  rcases withData_eq n s k with ⟨-, he⟩ | ⟨-, he⟩ <;> rw [he] at h <;> cases h
  · exact .fault _ _ rfl
  · exact hk

/-- A key skip either faults or skips on some condition (R170, R171). -/
theorem skipOnKey_eq (w : Bool) (x : Reg) (s : State) :
    (∃ n, skipOnKey w x s = .next (takeFault .keyIndex n s)) ∨
    (∃ c, skipOnKey w x s = .next (s.advance.skipIf c)) := by
  unfold skipOnKey
  split
  · exact .inr ⟨_, rfl⟩
  · exact .inl ⟨_, rfl⟩

theorem Effect.of_skipOnKey {i : Instr} {w : Bool} {x : Reg} {s t : State} (h : skipOnKey w x s = .next t) :
    Effect s t i := by
  rcases skipOnKey_eq w x s with ⟨n, he⟩ | ⟨c, he⟩ <;> rw [he] at h <;> cases h
  · exact .fault _ _ rfl
  · exact .of_skipIf _ _ _

/-- The key wait loads a key into its register, or answers its own state: the rollback undoes the advance
(R173). -/
theorem execLdVxK_eq (x : Reg) (s : State) :
    (∃ b, execLdVxK x s = .next (s.advance.setReg x b)) ∨ execLdVxK x s = .next s := by
  unfold execLdVxK
  split
  · exact .inl ⟨_, rfl⟩
  · right
    have hpc : s.advance.pc - 2 = s.pc := BitVec.add_sub_cancel s.pc 2
    rw [hpc]
    rfl

/-- The inversion of `exec`: one effect per instruction, or the fault of its rule. -/
theorem exec_effect {i : Instr} {s t : State} (h : exec i s = .next t) : Effect s t i := by
  cases i with
  | call nnn =>
    have h : Host.Outcome.next (pushAndJump (addrWord nnn) s) = .next t := h
    rcases pushAndJump_eq (addrWord nnn) s with ⟨-, he⟩ | ⟨hlt, he⟩ <;> rw [he] at h <;> cases h
    · exact .fault _ _ rfl
    · exact .push nnn hlt rfl
  | ret =>
    have h : Host.Outcome.next (popAndJump s) = .next t := h
    rcases popAndJump_eq s with ⟨-, he⟩ | ⟨hlt, he⟩ <;> rw [he] at h <;> cases h
    · exact .fault _ _ rfl
    · exact .pop hlt rfl
  | jp nnn => cases h; exact .flow (.jump nnn) rfl
  | jpV0 nnn => cases h; exact .flow (.offset nnn _) rfl
  | seByte x nn | sneByte x nn | seReg x y => cases h; exact .of_skipIf _ _ _
  | skp x | sknp x => exact .of_skipOnKey h
  | ldByte x nn | addByte x nn | ldReg x y | orReg x y | andReg x y | xorReg x y | rnd x nn | ldVxDt x =>
    cases h; exact .regs rfl rfl
  | addReg x y | subReg x y | subnReg x y | shr x y | shl x y =>
    cases h; exact .of_regs_frame rfl (writeResultAndFlag_frame x _ _ s.advance)
  | ldVxK x =>
    have h : execLdVxK x s = .next t := h
    rcases execLdVxK_eq x s with ⟨b, he⟩ | he <;> rw [he] at h <;> cases h
    · exact .regs rfl rfl
    · exact .flow .stay rfl
  | loadRegs x => exact .of_withData (.of_regs_frame rfl (loadFromI_frame (x.toNat + 1) s.advance)) h
  | cls => cases h; exact .clear rfl
  | drw x y n => exact .of_withData (.draw x y n rfl) h
  | ldB x => exact .of_withData (.store ⟨x, .inl rfl⟩ rfl) h
  | storeRegs x => exact .of_withData (.store ⟨x, .inr rfl⟩ rfl) h
  | ldI nnn => cases h; exact .index (.inl ⟨nnn, rfl⟩) rfl
  | addI x => cases h; exact .index (.inr ⟨x, .inl rfl⟩) rfl
  | ldF x => cases h; exact .index (.inr ⟨x, .inr rfl⟩) rfl
  | ldDtVx x => cases h; exact .delay x rfl
  | ldStVx x => cases h; exact .sound x rfl

/-- Settles O55: the parts an effect does not list are equal, and an effect that lists one names the
instruction. -/
theorem eachPartIsWrittenOnlyByItsInstructions : Obligations.EachPartIsWrittenOnlyByItsInstructions := by
  intro i s t h
  cases exec_effect h with
  | fault f n ht => simp [ht, takeFault]
  | flow _ ht | regs _ ht | clear ht | draw x y n ht | delay x ht | sound x ht | push nnn _ ht | pop _ ht =>
    rw [ht]; simp
  | store hi ht => rw [ht]; simpa using fun _ => hi
  | index hi ht => rw [ht]; simpa using fun _ => hi

/-! ## The range of `pc` (R23) -/

theorem addrWord_toNat (nnn : Addr12) : (addrWord nnn).toNat = nnn.toNat := by
  unfold addrWord; rw [BitVec.toNat_setWidth]; omega

theorem byteWord_toNat (b : Byte) : (byteWord b).toNat = b.toNat := by
  unfold byteWord; rw [BitVec.toNat_setWidth]; omega

/-- From a fetch address inside memory no instruction takes `pc` above 0xFFF + 0xFF. -/
theorem PcTarget.toNat_le {p a : Word16} (hp : p.toNat ≤ 0xFFE) (h : PcTarget p a) : a.toNat ≤ 0x10FE := by
  cases h with
  | stay => omega
  | next => bv_omega
  | skip => bv_omega
  | jump nnn => rw [addrWord_toNat]; omega
  | offset nnn b => rw [BitVec.toNat_add, addrWord_toNat, byteWord_toNat]; omega

/-- The range of `pc` reads `pc`, `SP` and the stack only. -/
theorem pcInv_of_stack_eq {s t : State} (h : PcInv s) (hsp : t.sp = s.sp) (hstk : t.stk = s.stk)
    (hpc : t.pc.toNat ≤ 0x10FE) : PcInv t := by
  refine ⟨hpc, ?_⟩
  rw [hsp, hstk]
  exact h.2

/-- An instruction fetched inside memory keeps the range of `pc`: a push stores an address at most 0x1000, a pop
returns to a live entry, and every other effect leaves the stack alone. -/
theorem Effect.pcInv {i : Instr} {s t : State} (e : Effect s t i) (hp : s.pc.toNat ≤ 0xFFE) (h : PcInv s) :
    PcInv t := by
  obtain ⟨hpc, hlive⟩ := h
  have hnext : (s.pc + 2).toNat ≤ 0x1000 := by bv_omega
  cases e with
  | fault f n ht => subst ht; exact ⟨hpc, hlive⟩
  | flow htgt ht =>
    exact pcInv_of_stack_eq ⟨hpc, hlive⟩ (by rw [ht]) (by rw [ht]) (htgt.toNat_le hp)
  | push nnn hsp ht =>
    subst ht
    refine ⟨(PcTarget.jump nnn).toNat_le hp, fun j hj => ?_⟩
    by_cases hj' : s.sp.val = j.val
    · simpa [hj'] using hnext
    · simpa [hj'] using hlive j (by simp only at hj; omega)
  | pop hsp ht =>
    subst ht
    have htop := hlive ⟨s.sp.val - 1, by omega⟩ (by simp only; omega)
    refine ⟨?_, fun j hj => hlive j ?_⟩
    · exact le_trans htop (by decide)
    · simp only at hj; omega
  | regs _ ht | clear ht | draw x y n ht | store _ ht | index _ ht | delay x ht | sound x ht =>
    refine pcInv_of_stack_eq ⟨hpc, hlive⟩ (by rw [ht]) (by rw [ht]) ?_
    rw [congrArg State.pc ht]
    exact PcTarget.next.toNat_le hp

/-- A fetch that stays inside memory has its address at most 0xFFE. -/
theorem pc_le_of_fetchOut_false {s : State} (hoob : s.cfg.oob = .fault) (h : s.fetchOut = false) :
    s.pc.toNat ≤ 0xFFE := by
  simp only [State.fetchOut, hoob, true_and, decide_eq_false_iff_not] at h
  omega

/-- The state a step answers is the outcome's, or the outcome's after the post-step. -/
theorem finish_eq_next {o : Host.Outcome State Fault Refusal} {t : State} (h : finish o = .next t) :
    ∃ u, o = .next u ∧ (t = u ∨ t = postStep u) := by
  cases o with
  | next u =>
    refine ⟨u, rfl, ?_⟩
    rcases finish_next u with ⟨-, he⟩ | ⟨-, he⟩ <;> rw [he] at h <;> cases h
    · exact .inl rfl
    · exact .inr rfl
  | fault r => cases h
  | refused r => cases h

/-- Settles O54: the fetch bounds the address of every instruction that runs, and `Effect.pcInv` does the rest; the
post-step and a fault leave `pc` and the stack alone. -/
theorem stepKeepsPcRange : Obligations.StepKeepsPcRange := by
  intro s t hoob h hstep
  rcases step_cases hstep with ⟨-, rfl⟩ | ⟨-, -, rfl⟩ | ⟨-, hf, hrun⟩
  · exact h
  · exact h
  have hp := pc_le_of_fetchOut_false hoob hf
  have hnext : PcInv s.advance := ⟨PcTarget.next.toNat_le hp, h.2⟩
  rcases hrun with ⟨i, -, hfin⟩ | ⟨x, -, hfin⟩ | ⟨op, -, rfl⟩
  · obtain ⟨u, hu, ht⟩ := finish_eq_next hfin
    have hinv := (exec_effect hu).pcInv hp h
    rcases ht with rfl | rfl <;> exact hinv
  · obtain ⟨u, hu, ht⟩ := finish_eq_next hfin
    cases hu
    rcases ht with rfl | rfl <;> exact hnext
  · exact hnext

/-! ## The flag register (R21, R133) -/

theorem flagByte_zero_or_one (c : Bool) : flagByte c = 0 ∨ flagByte c = 1 := by
  cases c
  · exact .inl rfl
  · exact .inr rfl

/-- A flag-writing instruction leaves a flag in `VF` unless the result is written over it. -/
theorem writeResultAndFlag_vf {x : Reg} {s : State} (hx : x ≠ 15 ∨ s.cfg.vfOrder = .flagLast) (r : Byte) (f : Bool) :
    (writeResultAndFlag x r f s).reg 15 = flagByte f := by
  rw [reg_writeResultAndFlag]
  cases ho : s.cfg.vfOrder with
  | flagLast => rfl
  | flagFirst =>
    have hx : (15 : Reg) ≠ x := by simpa [ho, eq_comm] using hx
    exact if_neg hx

/-- An instruction that writes no register leaves every register alone. -/
theorem reg_of_no_regs_written {i : Instr} {s t : State} (h : exec i s = .next t)
    (hi : writesOnlyRegs i = false) (hd : ∀ x y n, i ≠ .drw x y n) (j : Reg) : t.reg j = s.reg j := by
  cases exec_effect h with
  | regs hr ht => rw [hi] at hr; cases hr
  | draw x y n ht => exact absurd rfl (hd x y n)
  | fault f n ht => rw [ht]; rfl
  | flow _ ht | push _ _ ht | pop _ ht | clear ht | store _ ht | index _ ht | delay _ ht | sound _ ht =>
    rw [ht]; rfl

/-- A sprite draw leaves the collision flag in `VF`, and a failed range check leaves `VF` alone (R161, R205). -/
theorem execDrw_vf {x y : Reg} {n : Nibble} {s t : State} (h : execDrw x y n s = .next t) :
    (s.inRange n.toNat → t.reg 15 = 0 ∨ t.reg 15 = 1) ∧ (¬ s.inRange n.toNat → t.reg 15 = s.reg 15) := by
  rcases withData_eq n.toNat s (drawSprite (drwPixels x y n s)) with ⟨hd, he⟩ | ⟨hd, he⟩ <;>
    rw [execDrw, he] at h <;> cases h
  · refine ⟨fun hr => ?_, fun _ => rfl⟩
    rw [dataOut_of_inRange hr] at hd
    cases hd
  · refine ⟨fun _ => ?_, fun hr => absurd (inRange_of_dataOut hd) hr⟩
    rw [drawSprite, show (15 : Reg) = regVF from rfl, reg_setReg_same]
    exact flagByte_zero_or_one _

/-- A block load of `V[0]` to `V[X]` reaches `VF` only at `X = 15` (R146). -/
theorem execLoadRegs_vf {x : Reg} {s t : State} (h : execLoadRegs x s = .next t) (hx : x ≠ 15) :
    t.reg 15 = s.reg 15 := by
  rcases withData_eq (x.toNat + 1) s (loadFromI (x.toNat + 1)) with ⟨-, he⟩ | ⟨-, he⟩ <;>
    rw [execLoadRegs, he] at h <;> cases h
  · rfl
  · have hlt : ¬ (15 : Reg).toNat < x.toNat + 1 := by bv_omega
    rw [reg_loadFromI _ (by omega), if_neg hlt]
    rfl

/-- Settles O56: the ALU's flag writers by `writeResultAndFlag_vf`, a destination other than `VF` by the frame of a
register write, and the rest write no register. -/
theorem onlyFlagWritersTouchVf : Obligations.OnlyFlagWritersTouchVf := by
  intro i s t h
  cases i with
  | addReg x y | subReg x y | shr x y | subnReg x y | shl x y =>
    intro hx
    cases h
    rw [writeResultAndFlag_vf (s := s.advance) hx]
    exact flagByte_zero_or_one _
  | drw x y n => exact execDrw_vf h
  | ldByte x nn | addByte x nn | ldReg x y | orReg x y | andReg x y | xorReg x y | rnd x nn | ldVxDt x =>
    intro hx
    cases h
    exact reg_setReg_other s.advance _ hx.symm
  | ldVxK x =>
    intro hx
    have h : execLdVxK x s = .next t := h
    rcases execLdVxK_eq x s with ⟨b, he⟩ | he <;> rw [he] at h <;> cases h
    · exact reg_setReg_other s.advance b hx.symm
    · rfl
  | loadRegs x => exact execLoadRegs_vf h
  | _ => exact reg_of_no_regs_written h rfl (fun _ _ _ => nofun) 15

/-! ## The decode report (R30, R202) -/

/-- The part of `STATUS` that R202 writes. -/
def derrRecord (s : State) : Bool × Word16 × Word16 := (s.status.derr, s.status.derrPc, s.status.derrOp)

/-- No instruction and no fatal fault writes the decode report. -/
theorem exec_derrRecord {i : Instr} {s t : State} (h : exec i s = .next t) : derrRecord t = derrRecord s := by
  rcases exec_cases h with ⟨f, n, rfl, -⟩ | hc
  · rfl
  · rw [derrRecord, hc.status]; rfl

/-- A step leaves the decode report alone, or reports the unrecognized word it fetched. -/
theorem step_derrRecord {s t : State} (h : step s = .next t) :
    derrRecord t = derrRecord s ∨
    (decode s.cfg.encLdF10 (s.bigEndian s.pc.toNat) = .unrecognized (s.bigEndian s.pc.toNat) ∧
      derrRecord t = derrRecord (reportDecodeError (s.bigEndian s.pc.toNat) s)) := by
  rcases step_cases h with ⟨-, rfl⟩ | ⟨-, -, rfl⟩ | ⟨-, -, ⟨i, -, hfin⟩ | ⟨x, -, hfin⟩ | ⟨op, hdec, rfl⟩⟩
  · exact .inl rfl
  · exact .inl rfl
  · obtain ⟨u, hu, ht⟩ := finish_eq_next hfin
    have hrec := exec_derrRecord hu
    rcases ht with rfl | rfl <;> exact .inl hrec
  · obtain ⟨u, hu, ht⟩ := finish_eq_next hfin
    cases hu
    rcases ht with rfl | rfl <;> exact .inl rfl
  · obtain rfl := decode_unrecognized hdec
    exact .inr ⟨hdec, rfl⟩

/-- Settles O57: a step that leaves the report alone meets both clauses, and `reportDecodeError` captures only where
`DERR` was 0. -/
theorem derrIsStickyWithFirstCapture : Obligations.DerrIsStickyWithFirstCapture := by
  intro s t h
  rcases step_derrRecord h with hrec | ⟨hdec, hrec⟩ <;>
    simp only [derrRecord, reportDecodeError, Prod.mk.injEq] at hrec <;> obtain ⟨hd, hp, ho⟩ := hrec
  · refine ⟨fun hs => ⟨hd.trans hs, hp, ho⟩, fun hs ht => ?_⟩
    rw [hd, hs] at ht
    cases ht
  · exact ⟨fun hs => ⟨hd, by simpa [hs] using hp, by simpa [hs] using ho⟩,
      fun hs _ => ⟨hdec, by simpa [hs] using hp, by simpa [hs] using ho⟩⟩

end Sys2Proof.Machine
end

section
/-! Addressable Memory: what boot places, what a store leaves for the next fetch, and the invariant of memory and of the
records in `STATUS` (spec/20_memory.md; spec/60_exceptions.md R200, R202). -/

namespace Sys2Proof.Machine

/-! ## Words of the decoding table (R52, R73) -/

/-- Settles O5: the decoder evaluated on each listed word. -/
theorem listedWordsDecodeAsListed : Obligations.ListedWordsDecodeAsListed := by
  unfold Obligations.ListedWordsDecodeAsListed
  decide

/-! ## Stores that stay inside memory (R53, R57) -/

/-- Bytes stored without going past 0xFFF are read back at their own addresses. -/
theorem read_storeBytes_inside {m : Memory} (hm : Memory.wf m) {a : Nat} {bytes : List Byte}
    (hfit : a + bytes.length ≤ 4096) {k : Nat} (hk : k < bytes.length) :
    (storeBytes m a bytes).read (a + k) = bytes[k] := by
  have hmod : (a + k) % 4096 = a + k := Nat.mod_eq_of_lt (by omega)
  rw [← read_storeBytes_same bytes a k hm (by omega) hk, hmod]

/-- Bytes stored without going past 0xFFF leave the addresses below and above them alone. -/
theorem read_storeBytes_outside (m : Memory) {a a' : Nat} {bytes : List Byte}
    (hfit : a + bytes.length ≤ 4096) (ha : a' < a ∨ a + bytes.length ≤ a') :
    (storeBytes m a bytes).read a' = m.read a' :=
  read_storeBytes_other bytes m a a' fun k hk => by
    rw [Nat.mod_eq_of_lt (by omega)]
    omega

/-! ## Boot (R63, R232) -/

/-- Memory as boot leaves it: the preload from 0x000, then the image from the load origin. -/
def bootMem (c : Config) (image : List Byte) : Memory := storeBytes (storeBytes [] 0 c.preload) 0x200 image

/-- With an image that fits, boot answers the reset state with `bootMem` and the given keys. -/
theorem boot_of_length_le (c : Config) {image : List Byte} (keys : Keys) (h : image.length ≤ 3584) :
    boot c image keys = some { State.resetOf c with mem := bootMem c image, key := keys } := by
  have hok : imageOk image = true := decide_eq_true h
  simp only [boot, hostLoad, hok, if_true, Option.map_some]
  rfl

/-- With an image too long for memory, boot answers no machine. -/
theorem boot_of_lt_length (c : Config) {image : List Byte} (keys : Keys) (h : 3584 < image.length) :
    boot c image keys = none := by
  have hok : imageOk image = false := decide_eq_false (by omega)
  simp only [boot, hostLoad, hok, Bool.false_eq_true, if_false, Option.map_none]

/-- Below the load origin and above the image, boot leaves the preload alone. -/
theorem read_bootMem_outside (c : Config) {image : List Byte} (hi : image.length ≤ 3584) {a : Nat}
    (ha : a < 0x200 ∨ 0x200 + image.length ≤ a) :
    (bootMem c image).read a = (storeBytes [] 0 c.preload).read a :=
  read_storeBytes_outside _ (by omega) ha

/-- Addresses of neither image read as the reset value 0 (R51). -/
theorem read_bootMem_unplaced {c : Config} (hp : c.preload.length ≤ 0x200) {image : List Byte}
    (hi : image.length ≤ 3584) {a : Nat} (hlo : c.preload.length ≤ a)
    (ha : a < 0x200 ∨ 0x200 + image.length ≤ a) : (bootMem c image).read a = 0 := by
  rw [read_bootMem_outside c hi ha, read_storeBytes_outside [] (by omega) (.inr (by omega))]
  rfl

/-- Settles O51: each address is read through the image's store, then through the preload's. -/
theorem bootPlacesImageAtOrigin : Obligations.BootPlacesImageAtOrigin := by
  intro c image keys hp
  refine ⟨fun hi => ⟨_, boot_of_length_le c keys hi, fun j hj => ?_, fun j hj => ?_, fun a hlo hhi => ?_,
    fun a ha => ?_, rfl, rfl⟩, boot_of_lt_length c keys⟩
  · exact read_storeBytes_inside (wf_storeBytes _ _ Memory.wf_nil) (by omega) hj
  · have hpre := read_storeBytes_inside Memory.wf_nil (a := 0) (by omega) hj
    rw [Nat.zero_add] at hpre
    rw [← hpre]
    exact read_bootMem_outside c hi (.inl (by omega))
  · exact read_bootMem_unplaced hp hi hlo (.inl hhi)
  · exact read_bootMem_unplaced hp hi (by omega) (.inr ha)

/-! ## A store and the next fetch (R60) -/

/-- A step that fetches an instruction runs it and the post-step. -/
theorem step_of_fetches {s : State} {i : Instr} (h : s.fetches i) : step s = finish (exec i s) := by
  obtain ⟨hh, hf, hd⟩ := h
  rw [step_eq_runDecoded hh hf, hd]
  rfl

/-- `LD [I], Vx` within memory completes, with the block stored (R145). -/
theorem exec_storeRegs_of_le {s : State} {x : Reg} (hx : s.i.toNat + x.toNat ≤ 0xFFF) :
    exec (.storeRegs x) s = .next (storeFromI (s.firstRegs (x.toNat + 1)) s.advance) :=
  withData_of_inRange (fun _ => .inr (by omega)) _

/-- Each register of the block is read back where `LD [I], Vx` stored it. -/
theorem memRead_storeFromI_firstRegs {s : State} {x k : Reg} (hm : Memory.wf s.mem)
    (hx : s.i.toNat + x.toNat ≤ 0xFFF) (hk : k.toNat ≤ x.toNat) :
    (storeFromI (s.firstRegs (x.toNat + 1)) s.advance).memRead (s.i.toNat + k.toNat) = s.reg k := by
  have hlen := length_firstRegs s (x.toNat + 1)
  have hlt : k.toNat < (s.firstRegs (x.toNat + 1)).length := by omega
  have hread := read_storeBytes_inside hm (a := s.i.toNat) (by omega) hlt
  rw [getElem_firstRegs, BitVec.ofNat_toNat, BitVec.setWidth_eq] at hread
  rwa [State.memRead, physAddr_eq, Nat.mod_eq_of_lt (by omega)]

/-- A step that fetches `LD [I], Vx` within memory stores the block and completes. -/
theorem step_storeRegs_of_le {s : State} {x : Reg} (h : s.fetches (.storeRegs x))
    (hx : s.i.toNat + x.toNat ≤ 0xFFF) :
    step s = .next (postStep (storeFromI (s.firstRegs (x.toNat + 1)) s.advance)) := by
  have hhalt : (storeFromI (s.firstRegs (x.toNat + 1)) s.advance).status.halt = false := h.1
  rw [step_of_fetches h, exec_storeRegs_of_le hx]
  simp [finish, hhalt]

/-- Settles O58: the step completes with the block stored, and the next step fetches two bytes of it. -/
theorem storeIsSeenByNextFetch : Obligations.StoreIsSeenByNextFetch := by
  intro s t x k l hm hfetch hstep hx hk hl hpc
  have ht : t = postStep (storeFromI (s.firstRegs (x.toNat + 1)) s.advance) :=
    Host.Outcome.next.inj (hstep.symm.trans (step_storeRegs_of_le hfetch hx))
  have hhi := memRead_storeFromI_firstRegs hm hx (k := k) (by omega)
  have hlo := memRead_storeFromI_firstRegs hm hx (k := l) (by omega)
  have hhalt : t.status.halt = false := by rw [ht]; exact hfetch.1
  have hf : t.fetchOut = false := decide_eq_false (by omega)
  refine ⟨hhalt, hf, ?_⟩
  rw [step_eq_runDecoded hhalt hf, State.wordAt, hpc, ← hhi, ← hlo, hl, ht]
  rfl

/-! ## The invariant (R50, R200, R202, R208) -/

/-- `FAULT_INFO` of a bounds fault holds the lowest offending address in full. -/
theorem toNat_ofNat_max_bound (a : Word16) : (BitVec.ofNat 17 (max a.toNat 0x1000)).toNat = max a.toNat 0x1000 := by
  rw [BitVec.toNat_ofNat]
  omega

/-- The record an instruction's fault leaves is the one R200 gives its cause. -/
theorem faultRecordOk_of_raises {i : Instr} {s : State} {f : FatalFault} {n : Nat} (h : Raises i s f n) :
    faultRecordOk (takeFault f n s) := by
  refine ⟨nofun, fun _ => ⟨rfl, ?_⟩⟩
  cases f with
  | stackOverflow =>
    obtain ⟨-, hsp, rfl⟩ := h
    exact .inl ⟨rfl, hsp, rfl⟩
  | stackUnderflow =>
    obtain ⟨-, hsp, rfl⟩ := h
    exact .inr (.inl ⟨rfl, hsp, rfl⟩)
  | memBounds =>
    obtain ⟨⟨hoob, -, -⟩, rfl⟩ := h
    exact .inr (.inr (.inl ⟨rfl, hoob, toNat_ofNat_max_bound s.i⟩))
  | fetchBounds => exact h.elim
  | keyIndex =>
    obtain ⟨hkey, x, -, hx, rfl⟩ := h
    have hinfo : (BitVec.ofNat 17 (s.reg x).toNat).toNat = (s.reg x).toNat := by
      rw [BitVec.toNat_ofNat]; omega
    refine .inr (.inr (.inr (.inr ⟨rfl, hkey, ?_⟩)))
    show 15 < (BitVec.ofNat 17 (s.reg x).toNat).toNat ∧ (BitVec.ofNat 17 (s.reg x).toNat).toNat ≤ 255
    omega

/-- The record a failed fetch leaves is the one R200 gives `FetchBounds`. -/
theorem faultRecordOk_of_fetchOut {s : State} (h : s.fetchOut = true) :
    faultRecordOk (takeFault .fetchBounds (max s.pc.toNat 0x1000) s) := by
  obtain ⟨hoob, hpc⟩ := of_decide_eq_true h
  exact ⟨nofun, fun _ => ⟨rfl, .inr (.inr (.inr (.inl ⟨rfl, hoob, hpc, rfl, toNat_ofNat_max_bound s.pc⟩)))⟩⟩

/-- While the engine runs, the fault record reads `STATUS` alone. -/
theorem faultRecordOk_of_status_eq {s t : State} (hh : s.status.halt = false) (hs : t.status = s.status)
    (h : faultRecordOk s) : faultRecordOk t := by
  refine ⟨fun _ => ?_, fun ht => ?_⟩
  · rw [hs]; exact h.1 hh
  · rw [hs, hh] at ht; cases ht

/-- A completed instruction keeps the invariant of a running engine. -/
theorem Completed.inv {s t : State} (h : Completed s t) (hh : s.status.halt = false) (hs : Inv s) : Inv t := by
  obtain ⟨hm, hfault, hderr⟩ := hs
  refine ⟨h.wf hm, faultRecordOk_of_status_eq hh h.status hfault, ?_⟩
  rw [derrRecordOk, h.status]
  exact hderr

/-- An instruction keeps the invariant of a running engine, whether it faults or completes. -/
theorem exec_inv {i : Instr} {s t : State} (h : exec i s = .next t) (hh : s.status.halt = false) (hs : Inv s) :
    Inv t := by
  rcases exec_cases h with ⟨f, n, rfl, hr⟩ | hc
  · exact ⟨hs.1, faultRecordOk_of_raises hr, hs.2.2⟩
  · exact hc.inv hh hs

/-- The decode report keeps the invariant of a running engine: it writes no part of the fault record (R202). -/
theorem inv_reportDecodeError {s : State} (op : Word16) (hh : s.status.halt = false) (hs : Inv s) :
    Inv (reportDecodeError op s) := by
  refine ⟨hs.1, ⟨hs.2.1.1, fun ht => ?_⟩, nofun⟩
  rw [reportDecodeError_halt, hh] at ht
  cases ht

/-- The post-step keeps the invariant, which reads neither the timers nor the draw index. -/
theorem inv_of_finish {o : Host.Outcome State Fault Refusal} {t : State} (h : finish o = .next t)
    (hu : ∀ u, o = .next u → Inv u) : Inv t := by
  obtain ⟨u, ho, ht⟩ := finish_eq_next h
  have hinv := hu u ho
  rcases ht with rfl | rfl <;> exact hinv

/-- Settles O52: along the five things a step can do (`step_cases`). -/
theorem stepKeepsInvariant : Obligations.StepKeepsInvariant := by
  intro s t hs hstep
  rcases step_cases hstep with ⟨-, rfl⟩ | ⟨-, hf, rfl⟩ | ⟨hh, -, ⟨i, -, hfin⟩ | ⟨x, -, hfin⟩ | ⟨op, -, rfl⟩⟩
  · exact hs
  · exact ⟨hs.1, faultRecordOk_of_fetchOut hf, hs.2.2⟩
  · exact inv_of_finish hfin fun u hu => exec_inv hu hh hs
  · refine inv_of_finish hfin fun u hu => ?_
    cases hu
    exact Completed.inv (s := s) ⟨rfl, rfl, rfl, rfl, id⟩ hh hs
  · have hadv : Completed (reportDecodeError op s) (reportDecodeError op s).advance := .of_frame rfl
    exact hadv.inv hh (inv_reportDecodeError op hh hs)

end Sys2Proof.Machine
end

section
/-! Encoding: the decoder and the encoder agree, the opcode map's masks and matches say which row a word selects, and
which words select none (spec/30_encoding.md R71 to R79). -/

namespace Sys2Proof

open Sys2Proof.Laws

/-! ## A word is made of its fields (R71) -/

theorem formatA_fields (op : Word16) : formatA (fieldClass op) (fieldNNN op) = op := by
  apply BitVec.eq_of_getLsbD_eq; intro i hi
  simp only [formatA, fieldClass, fieldNNN, BitVec.getLsbD_append, BitVec.getLsbD_extractLsb']
  grind

theorem formatI_fields (op : Word16) : formatI (fieldClass op) (fieldX op) (fieldNN op) = op := by
  apply BitVec.eq_of_getLsbD_eq; intro i hi
  simp only [formatI, fieldClass, fieldX, fieldNN, BitVec.getLsbD_append, BitVec.getLsbD_extractLsb']
  grind

theorem formatR_fields (op : Word16) :
    formatR (fieldClass op) (fieldX op) (fieldY op) (fieldN op) = op := by
  apply BitVec.eq_of_getLsbD_eq; intro i hi
  simp only [formatR, fieldClass, fieldX, fieldY, fieldN, BitVec.getLsbD_append, BitVec.getLsbD_extractLsb']
  grind

/-! ## What a masked word says of the fields (R74) -/

theorem fieldClass_of_classMask {op w : Word16} (h : op &&& 0xF000 = w) : fieldClass op = fieldClass w := by
  rw [← h, ← formatA_fields op, formatA_mask, formatA_class, formatA_class]

theorem fields_of_byteMask {op w : Word16} (h : op &&& 0xF0FF = w) :
    fieldClass op = fieldClass w ∧ fieldNN op = fieldNN w := by
  rw [← h, ← formatI_fields op, formatI_selMask]
  simp only [formatI_class, formatI_nn, and_self]

theorem fields_of_nibbleMask {op w : Word16} (h : op &&& 0xF00F = w) :
    fieldClass op = fieldClass w ∧ fieldN op = fieldN w := by
  rw [← h, ← formatR_fields op, formatR_selMask]
  simp only [formatR_class, formatR_n, and_self]

/-! ## The row a word selects -/

/-- The instruction of the same row of the opcode map with its operands read from the fields of a word. -/
def Instr.withFieldsOf (op : Word16) : Instr → Instr
  | .cls => .cls
  | .ret => .ret
  | .jp _ => .jp (fieldNNN op)
  | .call _ => .call (fieldNNN op)
  | .seByte _ _ => .seByte (fieldX op) (fieldNN op)
  | .sneByte _ _ => .sneByte (fieldX op) (fieldNN op)
  | .seReg _ _ => .seReg (fieldX op) (fieldY op)
  | .ldByte _ _ => .ldByte (fieldX op) (fieldNN op)
  | .addByte _ _ => .addByte (fieldX op) (fieldNN op)
  | .ldReg _ _ => .ldReg (fieldX op) (fieldY op)
  | .orReg _ _ => .orReg (fieldX op) (fieldY op)
  | .andReg _ _ => .andReg (fieldX op) (fieldY op)
  | .xorReg _ _ => .xorReg (fieldX op) (fieldY op)
  | .addReg _ _ => .addReg (fieldX op) (fieldY op)
  | .subReg _ _ => .subReg (fieldX op) (fieldY op)
  | .shr _ _ => .shr (fieldX op) (fieldY op)
  | .subnReg _ _ => .subnReg (fieldX op) (fieldY op)
  | .shl _ _ => .shl (fieldX op) (fieldY op)
  | .ldI _ => .ldI (fieldNNN op)
  | .jpV0 _ => .jpV0 (fieldNNN op)
  | .rnd _ _ => .rnd (fieldX op) (fieldNN op)
  | .drw _ _ _ => .drw (fieldX op) (fieldY op) (fieldN op)
  | .skp _ => .skp (fieldX op)
  | .sknp _ => .sknp (fieldX op)
  | .ldVxDt _ => .ldVxDt (fieldX op)
  | .ldVxK _ => .ldVxK (fieldX op)
  | .ldDtVx _ => .ldDtVx (fieldX op)
  | .ldStVx _ => .ldStVx (fieldX op)
  | .addI _ => .addI (fieldX op)
  | .ldF _ => .ldF (fieldX op)
  | .ldB _ => .ldB (fieldX op)
  | .storeRegs _ => .storeRegs (fieldX op)
  | .loadRegs _ => .loadRegs (fieldX op)

theorem rowMask_withFieldsOf (op : Word16) (i : Instr) : rowMask (i.withFieldsOf op) = rowMask i := by
  cases i <;> rfl

theorem rowMatch_withFieldsOf (op : Word16) (i : Instr) : rowMatch (i.withFieldsOf op) = rowMatch i := by
  cases i <;> rfl

/-- The encoder writes each operand to the field the decoder reads it from. -/
theorem withFieldsOf_encode (i : Instr) : i.withFieldsOf (encode i) = i := by
  cases i <;>
    simp only [Instr.withFieldsOf, encode, formatA_nnn, formatI_x, formatI_nn, formatR_x, formatR_y, formatR_n]

/-- The per-instruction law TableRow for every instruction. -/
theorem encode_mask (i : Instr) : encode i &&& rowMask i = rowMatch i := by
  change TableRow.Statement i
  cases i
  exacts [TableRow.cls, TableRow.ret, TableRow.jp _, TableRow.call _, TableRow.seByte _ _, TableRow.sneByte _ _,
    TableRow.seReg _ _, TableRow.ldByte _ _, TableRow.addByte _ _, TableRow.ldReg _ _, TableRow.orReg _ _,
    TableRow.andReg _ _, TableRow.xorReg _ _, TableRow.addReg _ _, TableRow.subReg _ _, TableRow.shr _ _,
    TableRow.subnReg _ _, TableRow.shl _ _, TableRow.ldI _, TableRow.jpV0 _, TableRow.rnd _ _,
    TableRow.drw _ _ _, TableRow.skp _, TableRow.sknp _, TableRow.ldVxDt _, TableRow.ldVxK _, TableRow.ldDtVx _,
    TableRow.ldStVx _, TableRow.addI _, TableRow.ldF _, TableRow.ldB _, TableRow.storeRegs _, TableRow.loadRegs _]

/-- A word under a row's mask that is the row's match decodes to that row, its operands read from the word. The
mask says which fields are fixed: the class alone, the class and the low byte, or the class and the low nibble. -/
theorem decode_of_row {k : Option Byte} {op : Word16} {i : Instr} (h : op &&& rowMask i = rowMatch i) :
    decode k op = .instr (i.withFieldsOf op) := by
  cases i <;> dsimp only [rowMask, rowMatch] at h
  case jp | call | ldI | jpV0 | seByte | sneByte | ldByte | addByte | rnd | drw =>
    rw [decode, fieldClass_of_classMask h]
    rfl
  case cls | ret =>
    obtain ⟨hc, hn⟩ := fields_of_byteMask h
    rw [decode, hc, decodeSystem, hn]
    rfl
  case skp | sknp =>
    obtain ⟨hc, hn⟩ := fields_of_byteMask h
    rw [decode, hc, decodeKey, hn]
    rfl
  case ldVxDt | ldVxK | ldDtVx | ldStVx | addI | ldF | ldB | storeRegs | loadRegs =>
    obtain ⟨hc, hn⟩ := fields_of_byteMask h
    rw [decode, hc, decodeMisc, hn]
    rfl
  case seReg =>
    obtain ⟨hc, hn⟩ := fields_of_nibbleMask h
    rw [decode, hc, decodeSkipReg, hn]
    rfl
  case ldReg | orReg | andReg | xorReg | addReg | subReg | shr | subnReg | shl =>
    obtain ⟨hc, hn⟩ := fields_of_nibbleMask h
    rw [decode, hc, decodeAlu, hn]
    rfl

/-- Settles O1: the encoder's word selects the instruction's own row, and its fields are the operands. -/
theorem decodeOfEncodeIsIdentity : Obligations.DecodeOfEncodeIsIdentity := by
  intro k i
  rw [decode_of_row (encode_mask i), withFieldsOf_encode]

/-! ## No other bit of a word is dropped (R75) -/

theorem formatA_of_fields {op : Word16} {c : BitVec 4} (hc : fieldClass op = c) :
    formatA c (fieldNNN op) = op := by
  rw [← hc, formatA_fields]

theorem formatI_of_fields {op : Word16} {c : BitVec 4} {n : Byte} (hc : fieldClass op = c) (hn : fieldNN op = n) :
    formatI c (fieldX op) n = op := by
  rw [← hc, ← hn, formatI_fields]

theorem formatR_of_fields {op : Word16} {c : BitVec 4} {n : Nibble} (hc : fieldClass op = c) (hn : fieldN op = n) :
    formatR c (fieldX op) (fieldY op) n = op := by
  rw [← hc, ← hn, formatR_fields]

theorem encode_of_decodeSystem {op : Word16} {i : Instr} (hc : fieldClass op = 0x0)
    (h : decodeSystem op = .instr i) : (i = .cls ∨ i = .ret) ∧ encode i = op &&& 0xF0FF := by
  unfold decodeSystem at h
  split at h <;> cases h
  case h_1 hn =>
    rw [← formatI_of_fields hc hn, formatI_selMask]
    exact ⟨.inl rfl, rfl⟩
  case h_2 hn =>
    rw [← formatI_of_fields hc hn, formatI_selMask]
    exact ⟨.inr rfl, rfl⟩

theorem encode_of_decodeSkipReg {op : Word16} {i : Instr} (hc : fieldClass op = 0x5)
    (h : decodeSkipReg op = .instr i) : encode i = op := by
  unfold decodeSkipReg at h
  split at h <;> cases h
  next hn => exact formatR_of_fields hc hn

theorem encode_of_decodeAlu {op : Word16} {i : Instr} (hc : fieldClass op = 0x8)
    (h : decodeAlu op = .instr i) : encode i = op := by
  unfold decodeAlu at h
  split at h <;> cases h
  all_goals next hn => exact formatR_of_fields hc hn

theorem encode_of_decodeKey {op : Word16} {i : Instr} (hc : fieldClass op = 0xE)
    (h : decodeKey op = .instr i) : encode i = op := by
  unfold decodeKey at h
  split at h <;> cases h
  all_goals next hn => exact formatI_of_fields hc hn

theorem decodeLdF10_ne_instr (k : Option Byte) (op : Word16) (i : Instr) : decodeLdF10 k op ≠ .instr i := by
  unfold decodeLdF10
  split
  · split <;> nofun
  · nofun

theorem encode_of_decodeMisc {k : Option Byte} {op : Word16} {i : Instr} (hc : fieldClass op = 0xF)
    (h : decodeMisc k op = .instr i) : encode i = op := by
  unfold decodeMisc at h
  split at h
  case h_10 => exact absurd h (decodeLdF10_ne_instr k op i)
  all_goals
    next hn =>
      cases h
      exact formatI_of_fields hc hn

/-- A recognized word is the encoder's word of what it decodes to, or it decodes to `CLS` or `RET` and is the
encoder's word but for the second nibble. -/
theorem encode_of_decode {k : Option Byte} {op : Word16} {i : Instr} (h : decode k op = .instr i) :
    encode i = op ∨ (i = .cls ∨ i = .ret) ∧ encode i = op &&& 0xF0FF := by
  unfold decode at h
  split at h
  case h_1 hc => exact .inr (encode_of_decodeSystem hc h)
  case h_6 hc => exact .inl (encode_of_decodeSkipReg hc h)
  case h_9 hc => exact .inl (encode_of_decodeAlu hc h)
  case h_10 => cases h
  case h_15 hc => exact .inl (encode_of_decodeKey hc h)
  case h_16 => exact .inl (encode_of_decodeMisc (by generalize fieldClass op = c at *; decide +revert) h)
  case h_2 hc | h_3 hc | h_11 hc | h_12 hc => cases h; exact .inl (formatA_of_fields hc)
  case h_4 hc | h_5 hc | h_7 hc | h_8 hc | h_13 hc => cases h; exact .inl (formatI_of_fields hc rfl)
  case h_14 hc => cases h; exact .inl (formatR_of_fields hc rfl)

/-- The bits of a word that the decoder reads: all but the second nibble of `CLS` and `RET`. -/
def readMask (i : Instr) : Word16 := if i = .cls ∨ i = .ret then 0xF0FF else 0xFFFF

/-- The encoder writes 0 where the decoder does not read (R79). -/
theorem encode_and_readMask (i : Instr) : encode i &&& readMask i = encode i := by
  unfold readMask
  split
  · next h => rcases h with rfl | rfl <;> rfl
  · exact BitVec.and_allOnes

/-- The decoder reads every bit of the row's mask. -/
theorem readMask_and_rowMask (i : Instr) : readMask i &&& rowMask i = rowMask i := by
  unfold readMask
  split
  · next h => rcases h with rfl | rfl <;> rfl
  · exact BitVec.allOnes_and

/-- A recognized word is the encoder's word of what it decodes to in every bit the decoder reads. -/
theorem encode_eq_and_readMask {k : Option Byte} {op : Word16} {i : Instr} (h : decode k op = .instr i) :
    encode i = op &&& readMask i := by
  rcases encode_of_decode h with rfl | ⟨hi, he⟩
  · exact (encode_and_readMask i).symm
  · rw [he, readMask, if_pos hi]

/-- Settles O2: arm by arm of the decoder, the encoder writes the class and the selector that the arm matched and the
fields that it read (`encode_of_decode`); the mask is `readMask`. -/
theorem decodeDropsOnlyIgnoredBits : Obligations.DecodeDropsOnlyIgnoredBits :=
  fun _ _ _ h => encode_eq_and_readMask h

/-! ## A row of the opcode map is selected by its mask and match (R74) -/

/-- A word lies in the row of the instruction it decodes to. -/
theorem row_of_decode {k : Option Byte} {op : Word16} {i : Instr} (h : decode k op = .instr i) :
    op &&& rowMask i = rowMatch i := by
  calc op &&& rowMask i
      = op &&& readMask i &&& rowMask i := by rw [BitVec.and_assoc, readMask_and_rowMask]
    _ = encode i &&& rowMask i := by rw [encode_eq_and_readMask h]
    _ = rowMatch i := encode_mask i

/-- Settles O3: a word in a row decodes to that row, and a decoded word lies in the row it decodes to. -/
theorem wordSelectsRowByMaskAndMatch : Obligations.WordSelectsRowByMaskAndMatch := by
  intro k op i
  constructor
  · intro h
    exact ⟨i.withFieldsOf op, decode_of_row h, rowMask_withFieldsOf op i, rowMatch_withFieldsOf op i⟩
  · rintro ⟨j, hj, hmask, hmatch⟩
    rw [← hmask, ← hmatch]
    exact row_of_decode hj

/-! ## The unrecognized words (R76) -/

theorem decodeSystem_unrecognized_iff (op : Word16) :
    decodeSystem op = .unrecognized op ↔ fieldNN op ≠ 0xE0 ∧ fieldNN op ≠ 0xEE := by
  unfold decodeSystem
  split <;> simp_all

theorem decodeSkipReg_unrecognized_iff (op : Word16) :
    decodeSkipReg op = .unrecognized op ↔ fieldN op ≠ 0 := by
  unfold decodeSkipReg
  split <;> simp_all

/-- Of the sixteen low nibbles of class 8, 0 to 7 and 0xE select a row. -/
theorem decodeAlu_unrecognized_iff (op : Word16) :
    decodeAlu op = .unrecognized op ↔ 8 ≤ (fieldN op).toNat ∧ fieldN op ≠ 0xE := by
  unfold decodeAlu
  split
  case h_10 =>
    simp only [true_iff, imp_false] at *
    bv_omega
  all_goals simp_all

theorem decodeKey_unrecognized_iff (op : Word16) :
    decodeKey op = .unrecognized op ↔ fieldNN op ≠ 0x9E ∧ fieldNN op ≠ 0xA1 := by
  unfold decodeKey
  split <;> simp_all

theorem decodeMisc_none_unrecognized_iff (op : Word16) :
    decodeMisc none op = .unrecognized op ↔ fieldNN op ∉ classFSelectors := by
  unfold decodeMisc decodeLdF10
  split <;> simp_all [classFSelectors]

/-- Settles O4: class by class, from the low bytes or nibbles each class leaves unrecognized. -/
theorem unrecognizedWordsAreExactlyThese : Obligations.UnrecognizedWordsAreExactlyThese := by
  intro op
  rw [← decodeSystem_unrecognized_iff, ← decodeSkipReg_unrecognized_iff, ← decodeAlu_unrecognized_iff,
    ← decodeKey_unrecognized_iff, ← decodeMisc_none_unrecognized_iff, decode]
  split
  case h_16 =>
    have hF : fieldClass op = 0xF := by generalize fieldClass op = c at *; decide +revert
    simp [hF]
  all_goals next hc => simp [hc]

end Sys2Proof
end

section
/-! The step cycle: that every step answers, what a step request finds (a halted engine, a fetch outside memory, an
instruction), and the two ways a step can end, halted or completed (spec/40_step_cycle.md). -/

namespace Sys2Proof.Machine

/-! ## The step is total (R90) -/

theorem withData_answers (n : Nat) (s : State) (k : State → State) : ∃ t, withData n s k = .next t := by
  rcases withData_eq n s k with ⟨-, he⟩ | ⟨-, he⟩ <;> exact ⟨_, he⟩

theorem skipOnKey_answers (w : Bool) (x : Reg) (s : State) : ∃ t, skipOnKey w x s = .next t := by
  rcases skipOnKey_eq w x s with ⟨_, he⟩ | ⟨_, he⟩ <;> exact ⟨_, he⟩

/-- No instruction ends in a fault outcome or a refusal. -/
theorem exec_answers (i : Instr) (s : State) : ∃ t, exec i s = .next t := by
  cases i with
  | drw x y n => exact withData_answers _ s _
  | ldB x | storeRegs x | loadRegs x => exact withData_answers _ s _
  | skp x | sknp x => exact skipOnKey_answers _ x s
  | ldVxK x => rcases execLdVxK_eq x s with ⟨_, he⟩ | he <;> exact ⟨_, he⟩
  | _ => exact ⟨_, rfl⟩

theorem runDecoded_answers (d : Decoded) (s : State) : ∃ t, runDecoded d s = .next t := by
  cases d with
  | instr i =>
    obtain ⟨t, ht⟩ := exec_answers i s
    exact ⟨_, congrArg finish ht⟩
  | ldF10 x => exact ⟨_, rfl⟩
  | unrecognized op => exact ⟨_, rfl⟩

/-! ## What a step request finds (R91, R97) -/

theorem step_of_halted {s : State} (hh : s.status.halt = true) : step s = .next s := by
  simp [step, cycle, hh]

theorem step_of_fetchOut {s : State} (hh : s.status.halt = false) (hf : s.fetchOut = true) :
    step s = .next (takeFault .fetchBounds (max s.pc.toNat 0x1000) s) := by
  simp [step, cycle, hh, hf]

theorem fetchOut_eq_true_iff (s : State) : s.fetchOut = true ↔ s.cfg.oob = .fault ∧ s.pc.toNat + 1 > 0xFFF :=
  decide_eq_true_iff

theorem fetchOut_eq_false_iff (s : State) :
    s.fetchOut = false ↔ ¬ (s.cfg.oob = .fault ∧ s.pc.toNat + 1 > 0xFFF) :=
  decide_eq_false_iff_not

/-- Settles O49: a halted engine answers its own state, a fetch outside memory its fault, and whatever a word decodes
to answers. -/
theorem everyStepAnswersNextState : Obligations.EveryStepAnswersNextState := by
  intro s
  cases hh : s.status.halt with
  | true => exact ⟨s, step_of_halted hh⟩
  | false =>
    cases hf : s.fetchOut with
    | true => exact ⟨_, step_of_fetchOut hh hf⟩
    | false =>
      rw [step_eq_runDecoded hh hf]
      exact runDecoded_answers _ s

/-- Settles O44: of the host's moves only reset writes `STATUS`, and it writes all of it. -/
theorem haltedEngineIgnoresStepRequests : Obligations.HaltedEngineIgnoresStepRequests := by
  intro s hh
  refine ⟨step_of_halted hh, fun m => ?_, rfl⟩
  cases m with
  | reset => exact ⟨fun _ => rfl, fun _ => rfl⟩
  | keys k =>
    have hkeys : (hostMove (.keys k) s).status.halt = true := hh
    simp [hkeys]

/-- Two bytes make a word big-endian (R52). -/
theorem wordOfBytes_eq_ofNat (hi lo : Byte) : wordOfBytes hi lo = BitVec.ofNat 16 (hi.toNat * 256 + lo.toNat) := by
  apply BitVec.eq_of_toNat_eq
  have hcat : (wordOfBytes hi lo).toNat = hi.toNat <<< 8 ||| lo.toNat := BitVec.toNat_append hi lo
  rw [hcat, ← Nat.shiftLeft_add_eq_or_of_lt lo.isLt, Nat.shiftLeft_eq, BitVec.toNat_ofNat]
  omega

/-- Settles O45: the bounds rule of the fetch decides which of the two it is. -/
theorem fetchReadsBigEndianWordOrFaults : Obligations.FetchReadsBigEndianWordOrFaults := by
  intro s hh
  refine ⟨fun hoob hpc => ?_, fun hin => ?_⟩
  · exact step_of_fetchOut hh ((fetchOut_eq_true_iff s).2 ⟨hoob, hpc⟩)
  · rw [step_eq_runDecoded hh ((fetchOut_eq_false_iff s).2 hin), State.wordAt, wordOfBytes_eq_ofNat]
    rfl

/-! ## How a step ends (R94 to R96) -/

theorem finish_of_halted {t : State} (h : t.status.halt = true) : finish (.next t) = .next t := by
  simp [finish, h]

theorem finish_of_running {t : State} (h : t.status.halt = false) : finish (.next t) = .next (postStep t) := by
  simp [finish, h]

/-- Settles O43: `postStep` is phase 5 by definition, and `finish` adds it to a state that is not halted. -/
theorem stepRunsDecodedInstruction : Obligations.StepRunsDecodedInstruction := by
  intro s t i hh hin hdec hexec
  have hf : s.fetchOut = false := (fetchOut_eq_false_iff s).2 fun ⟨hoob, hpc⟩ => absurd (hin hoob) (by omega)
  have hstep : step s = finish (.next t) := by rw [step_of_fetches ⟨hh, hf, hdec⟩, hexec]
  exact ⟨fun ht => hstep.trans (finish_of_halted ht), fun ht => hstep.trans (finish_of_running ht)⟩

/-- What a completed step runs before phase 5: an instruction, or a word that is no row of the opcode map
(`LD F10, Vx`, which writes `I`, or an unrecognized word, which is reported). -/
inductive Ran (s u : State) : Prop
  | instr (i : Instr) (hi : s.fetches i) (hexec : exec i s = .next u)
  | noRow (hframe : { u with i := s.i, pc := s.pc, status := s.status } = s)

/-- A step ends halted, with nothing but `STATUS` written, or it completes: phase 5 after what it ran. -/
theorem step_halts_or_completes {s t : State} (h : step s = .next t) :
    (t.status.halt = true ∧ { t with status := s.status } = s) ∨
    (∃ u, u.status.halt = false ∧ t = postStep u ∧ Ran s u) := by
  rcases step_cases h with ⟨hh, rfl⟩ | ⟨-, -, rfl⟩ | ⟨hh, hf, ⟨i, hdec, hfin⟩ | ⟨x, -, hfin⟩ | ⟨op, -, rfl⟩⟩
  · exact .inl ⟨hh, rfl⟩
  · exact .inl ⟨rfl, rfl⟩
  · obtain ⟨u, hu⟩ := exec_answers i s
    rw [hu] at hfin
    rcases exec_cases hu with ⟨f, n, rfl, -⟩ | hdone
    · cases hfin
      exact .inl ⟨rfl, rfl⟩
    · have hrun : u.status.halt = false := by rw [hdone.status, hh]
      rw [finish_of_running hrun] at hfin
      cases hfin
      exact .inr ⟨u, hrun, rfl, .instr i ⟨hh, hf, hdec⟩ hu⟩
  · have hrun : (s.advance.setI (byteWord (s.reg x) * 10)).status.halt = false := hh
    rw [execLdF10, finish_of_running hrun] at hfin
    cases hfin
    exact .inr ⟨_, hrun, rfl, .noRow rfl⟩
  · have hrun : (reportDecodeError op s).advance.status.halt = false := hh
    exact .inr ⟨_, hrun, rfl, .noRow rfl⟩

/-! ## The timers (R95) -/

/-- A step that fetches an instruction is phase 5 after it, where the instruction leaves the engine running. -/
theorem eq_postStep_of_fetches {s t u : State} {i : Instr} (h : step s = .next t) (hi : s.fetches i)
    (hexec : exec i s = .next u) (hu : u.status.halt = false) : t = postStep u := by
  rw [step_of_fetches hi, hexec, finish_of_running hu] at h
  exact (Host.Outcome.next.inj h).symm

theorem postStep_dt_toNat (s : State) : (postStep s).dt.toNat = s.dt.toNat - 1 := countDown_toNat s.dt

theorem postStep_st_toNat (s : State) : (postStep s).st.toNat = s.st.toNat - 1 := countDown_toNat s.st

theorem exec_dt_of_ne_ldDtVx {i : Instr} {s u : State} (h : exec i s = .next u) (hi : ∀ x, i ≠ .ldDtVx x) :
    u.dt = s.dt := by
  obtain ⟨-, -, -, -, -, -, -, -, hdt, -⟩ := eachPartIsWrittenOnlyByItsInstructions i s u h
  by_contra hne
  obtain ⟨x, hx⟩ := hdt hne
  exact hi x hx

theorem exec_st_of_ne_ldStVx {i : Instr} {s u : State} (h : exec i s = .next u) (hi : ∀ x, i ≠ .ldStVx x) :
    u.st = s.st := by
  obtain ⟨-, -, -, -, -, -, -, -, -, hst, -⟩ := eachPartIsWrittenOnlyByItsInstructions i s u h
  by_contra hne
  obtain ⟨x, hx⟩ := hst hne
  exact hi x hx

/-- What ran left `DT` alone unless it was `LD DT, Vx`. -/
theorem Ran.dt_eq {s u : State} (h : Ran s u) (hs : ∀ x, ¬ s.fetches (.ldDtVx x)) : u.dt = s.dt := by
  cases h with
  | instr i hi hexec => exact exec_dt_of_ne_ldDtVx hexec fun x hx => hs x (hx ▸ hi)
  | noRow hframe => rw [← hframe]

/-- What ran left `ST` alone unless it was `LD ST, Vx`. -/
theorem Ran.st_eq {s u : State} (h : Ran s u) (hs : ∀ x, ¬ s.fetches (.ldStVx x)) : u.st = s.st := by
  cases h with
  | instr i hi hexec => exact exec_st_of_ne_ldStVx hexec fun x hx => hs x (hx ▸ hi)
  | noRow hframe => rw [← hframe]

/-- Settles O47: a step that ends halted wrote only `STATUS`; in a completed one phase 5 counts down what the step ran
left in the timers. -/
theorem timersCountDownOncePerCompletedStep : Obligations.TimersCountDownOncePerCompletedStep := by
  intro s t h
  rcases step_halts_or_completes h with ⟨ht, hframe⟩ | ⟨u, hu, rfl, hran⟩
  · refine ⟨fun _ => ⟨by rw [← hframe], by rw [← hframe]⟩, fun hrun => ?_⟩
    rw [ht] at hrun
    cases hrun
  · refine ⟨fun ht => ?_, fun _ => ⟨fun x hx => ?_, fun hs => ?_, fun x hx => ?_, fun hs => ?_, fun x hx => ?_⟩⟩
    · rw [postStep_status, hu] at ht
      cases ht
    · rw [eq_postStep_of_fetches h hx rfl hx.1, postStep_dt_toNat]
    · rw [postStep_dt_toNat, hran.dt_eq hs]
    · rw [eq_postStep_of_fetches h hx rfl hx.1, postStep_st_toNat]
    · rw [postStep_st_toNat, hran.st_eq hs]
    · rw [eq_postStep_of_fetches h hx rfl hx.1, postStep_reg]
      exact reg_setReg_same s.advance x s.dt

end Sys2Proof.Machine
end

section
/-! Control flow: jumps, skips, and the call stack. What `CALL` and `RET` do is said once for each height of the stack;
a skip and its condition are said once for the three compare-and-skip instructions (spec/41_control_flow.md). -/

namespace Sys2Proof.Machine

/-! ## Jumps (R101, R106) -/

/-- The target of `JP V0, addr` does not overflow 16 bits, so the sum is kept in full. -/
theorem addrWord_add_byteWord_toNat (nnn : Addr12) (b : Byte) :
    (addrWord nnn + byteWord b).toNat = nnn.toNat + b.toNat := by
  rw [BitVec.toNat_add, addrWord_toNat, byteWord_toNat]
  omega

/-- Settles O8: the jump target overwrites the advanced `pc`. -/
theorem jpSetsPc : Obligations.JpSetsPc := by
  intro s nnn
  exact ⟨decodeOfEncodeIsIdentity _ (.jp nnn), s.advance.setPc (addrWord nnn), rfl, addrWord_toNat nnn, rfl⟩

/-- Settles O13: the target is a sum that stays below 65536. -/
theorem jpV0AddsOffset : Obligations.JpV0AddsOffset := by
  intro s nnn
  exact ⟨decodeOfEncodeIsIdentity _ (.jpV0 nnn), s.advance.setPc (addrWord nnn + byteWord (s.reg 0)), rfl,
    addrWord_add_byteWord_toNat nnn (s.reg 0), rfl⟩

/-! ## Skips (R103 to R105, R107) -/

theorem advance_skipIf_frame (s : State) (c : Bool) : { s.advance.skipIf c with pc := s.pc } = s := by
  rw [skipIf_eq_setPc]
  rfl

theorem advance_skipIf_pc_of_true {s : State} {c : Bool} (hc : c = true) : (s.advance.skipIf c).pc = s.pc + 4 := by
  rw [skipIf_pc, if_pos hc, advance_pc, BitVec.add_assoc]
  rfl

theorem advance_skipIf_pc_of_false {s : State} {c : Bool} (hc : c = false) : (s.advance.skipIf c).pc = s.pc + 2 := by
  rw [skipIf_pc, hc]
  rfl

/-- An instruction that skips where `p` holds has `pc` two words on where it does, one word on where it does not, and
writes nothing else. -/
theorem exists_skip_on {i : Instr} {s : State} {p : Prop} [Decidable p]
    (h : exec i s = .next (s.advance.skipIf (decide p))) :
    ∃ t, exec i s = .next t ∧ { t with pc := s.pc } = s ∧ (p → t.pc = s.pc + 4) ∧ (¬ p → t.pc = s.pc + 2) :=
  ⟨_, h, advance_skipIf_frame s _, fun hp => advance_skipIf_pc_of_true (decide_eq_true hp),
    fun hp => advance_skipIf_pc_of_false (decide_eq_false hp)⟩

/-- Settles O10: the condition is equality with the byte. -/
theorem seByteSkipsIffEqual : Obligations.SeByteSkipsIffEqual := by
  intro s x nn
  exact ⟨decodeOfEncodeIsIdentity _ (.seByte x nn), exists_skip_on rfl⟩

/-- Settles O11: the condition is difference from the byte, so the second clause is its double negation. -/
theorem sneByteSkipsIffDifferent : Obligations.SneByteSkipsIffDifferent := by
  intro s x nn
  obtain ⟨t, hexec, hframe, hskip, hnext⟩ := exists_skip_on (i := .sneByte x nn) (s := s) rfl
  exact ⟨decodeOfEncodeIsIdentity _ (.sneByte x nn), t, hexec, hframe, hskip, fun heq => hnext (not_not_intro heq)⟩

/-- In class 5 only the low nibble 0 selects a row (R75). -/
theorem decode_formatR_skipReg_unrecognized (k : Option Byte) (x y : Reg) {n : Nibble} (hn : n ≠ 0) :
    decode k (formatR 0x5 x y n) = .unrecognized (formatR 0x5 x y n) := by
  rw [decode, formatR_class]
  exact (decodeSkipReg_unrecognized_iff _).2 (by rwa [formatR_n])

/-- Settles O12: the condition is equality of the two registers. -/
theorem seRegSkipsIffEqual : Obligations.SeRegSkipsIffEqual := by
  intro s x y
  exact ⟨decodeOfEncodeIsIdentity _ (.seReg x y), fun _ => decode_formatR_skipReg_unrecognized _ x y,
    exists_skip_on rfl⟩

/-! ## The call stack (R100, R102) -/

theorem exec_ret_of_empty {s : State} (h : s.sp.val = 0) : exec .ret s = .next (takeFault .stackUnderflow 0 s) := by
  rcases popAndJump_eq s with ⟨-, he⟩ | ⟨hpos, -⟩
  · exact congrArg Host.Outcome.next he
  · omega

/-- With `k + 1` entries `RET` takes the topmost, `STK[k]`. -/
theorem exec_ret_of_sp_eq_succ {s : State} {k : Fin 16} (h : s.sp.val = k.val + 1) :
    exec .ret s = .next { s with sp := k.castSucc, pc := s.stk[k] } := by
  rcases popAndJump_eq s with ⟨h0, -⟩ | ⟨_, he⟩
  · omega
  · have htop : s.sp.val - 1 = k.val := by omega
    simp only [htop] at he
    exact congrArg Host.Outcome.next he

theorem exec_call_of_full {s : State} (nnn : Addr12) (h : s.sp.val = 16) :
    exec (.call nnn) s = .next (takeFault .stackOverflow 16 s) := by
  rcases pushAndJump_eq (addrWord nnn) s with ⟨-, he⟩ | ⟨hlt, -⟩
  · exact congrArg Host.Outcome.next he
  · omega

/-- With `k < 16` entries `CALL` writes the first free one, `STK[k]`. -/
theorem exec_call_of_sp_eq {s : State} (nnn : Addr12) {k : Fin 16} (h : s.sp.val = k.val) :
    exec (.call nnn) s = .next { s with
      stk := s.stk.set k.val (s.pc + 2) k.isLt, sp := k.succ, pc := addrWord nnn } := by
  rcases pushAndJump_eq (addrWord nnn) s with ⟨h16, -⟩ | ⟨_, he⟩
  · omega
  · simp only [h] at he
    exact congrArg Host.Outcome.next he

/-- The encoder writes the second nibble of `RET` as 0; the decoder reads any (R75). -/
theorem decode_formatI_ret (k : Option Byte) (x : Reg) : decode k (formatI 0x0 x 0xEE) = .instr .ret :=
  decode_of_row (i := .ret) (formatI_selMask 0x0 x 0xEE)

/-- Settles O7: `RET` on an empty stack faults, on `k + 1` entries it pops `STK[k]`. -/
theorem retPopsReturnAddress : Obligations.RetPopsReturnAddress := by
  intro s
  exact ⟨decode_formatI_ret _, fun k hk => ⟨_, exec_ret_of_sp_eq_succ hk, rfl, rfl, rfl⟩, exec_ret_of_empty⟩

/-- Settles O9: `CALL` on a full stack faults, on `k < 16` entries it pushes onto `STK[k]` alone. -/
theorem callPushesReturnAddress : Obligations.CallPushesReturnAddress := by
  intro s nnn
  refine ⟨decodeOfEncodeIsIdentity _ (.call nnn), fun k hk => ?_, exec_call_of_full nnn⟩
  refine ⟨_, exec_call_of_sp_eq nnn hk, addrWord_toNat nnn, rfl, Vector.getElem_set_self k.isLt, fun j hj => ?_, rfl⟩
  exact Vector.getElem_set_ne k.isLt j.isLt (Fin.val_ne_of_ne hj.symm)

/-- Settles O14: the entry `CALL` pushed is live in the state it left, so the state `RET` runs in has it on top. -/
theorem callThenReturnResumesAfterCall : Obligations.CallThenReturnResumesAfterCall := by
  intro s t u nnn hlt hcall hsp hstk
  obtain ⟨k, hk⟩ : ∃ k : Fin 16, s.sp.val = k.val := ⟨⟨s.sp.val, hlt⟩, rfl⟩
  rw [exec_call_of_sp_eq nnn hk] at hcall
  cases hcall
  have htop : u.stk[k] = s.pc + 2 := (hstk k (Nat.lt_succ_self k.val)).trans (Vector.getElem_set_self k.isLt)
  exact ⟨_, exec_ret_of_sp_eq_succ (congrArg Fin.val hsp), htop, Fin.ext hk.symm⟩

end Sys2Proof.Machine
end

section
/-! Register load, arithmetic, logic, random. An instruction here either writes one register (`setReg`) or a result and
a flag (`writeResultAndFlag`), after the advance: what each of the two leaves is said once, and an instruction's
statement adds the arithmetic of its value and its flag (spec/42_alu.md R120 to R133). -/

namespace Sys2Proof.Machine

/-! ## One register written (R120 to R125, R131) -/

/-- What an instruction leaves that writes `V[x]` and nothing else. -/
theorem advance_setReg_frame (s : State) (x : Reg) (b : Byte) :
    (∀ j, j ≠ x → (s.advance.setReg x b).reg j = s.reg j) ∧ (s.advance.setReg x b).pc = s.pc + 2 ∧
      { s.advance.setReg x b with v := s.v, pc := s.pc } = s :=
  ⟨fun _ hj => reg_setReg_other s.advance b hj, rfl, rfl⟩

/-- Settles O15: the register holds the byte written to it. -/
theorem ldByteSetsRegister : Obligations.LdByteSetsRegister := by
  intro s x nn
  exact ⟨decodeOfEncodeIsIdentity _ (.ldByte x nn), _, rfl, reg_setReg_same _ x nn, advance_setReg_frame s x nn⟩

/-- Settles O16: the addition of bytes is the addition modulo 256. -/
theorem addByteWrapsWithoutFlag : Obligations.AddByteWrapsWithoutFlag := by
  intro s x nn
  refine ⟨decodeOfEncodeIsIdentity _ (.addByte x nn), _, rfl, ?_, advance_setReg_frame s x (s.reg x + nn)⟩
  rw [reg_setReg_same, BitVec.toNat_add]

/-- Settles O17: the register holds the byte read before the write. -/
theorem ldRegCopies : Obligations.LdRegCopies := by
  intro s x y
  exact ⟨decodeOfEncodeIsIdentity _ (.ldReg x y), _, rfl, reg_setReg_same _ x (s.reg y),
    advance_setReg_frame s x (s.reg y)⟩

/-- Settles O18: the result is the bitwise or of the two registers. -/
theorem orCombinesBits : Obligations.OrCombinesBits := by
  intro s x y
  refine ⟨decodeOfEncodeIsIdentity _ (.orReg x y), _, rfl, fun b => ?_,
    advance_setReg_frame s x (s.reg x ||| s.reg y)⟩
  rw [reg_setReg_same, BitVec.getLsbD_or]

/-- Settles O19: the result is the bitwise and of the two registers. -/
theorem andCombinesBits : Obligations.AndCombinesBits := by
  intro s x y
  refine ⟨decodeOfEncodeIsIdentity _ (.andReg x y), _, rfl, fun b => ?_,
    advance_setReg_frame s x (s.reg x &&& s.reg y)⟩
  rw [reg_setReg_same, BitVec.getLsbD_and]

/-- Settles O20: the result is the bitwise exclusive or of the two registers. -/
theorem xorCombinesBits : Obligations.XorCombinesBits := by
  intro s x y
  refine ⟨decodeOfEncodeIsIdentity _ (.xorReg x y), _, rfl, fun b => ?_,
    advance_setReg_frame s x (s.reg x ^^^ s.reg y)⟩
  rw [reg_setReg_same, BitVec.getLsbD_xor]

/-- A harness that supplies `r` for every step up to this one supplies it for this step (assumption log 3). -/
theorem rndByte_of_harness (s : State) (r : Byte) :
    rndByte { s with cfg := { s.cfg with rnd := .harness (List.replicate (s.draws + 1) r) } } = r :=
  List.getD_replicate _ (Nat.lt_succ_self s.draws)

/-- Settles O26: a bit of a conjunction is a bit of the mask; the byte under a harness is `rndByte_of_harness`. -/
theorem rndMasksRandomByte : Obligations.RndMasksRandomByte := by
  intro s x nn
  refine ⟨decodeOfEncodeIsIdentity _ (.rnd x nn),
    ⟨_, rfl, reg_setReg_same _ x _, fun b hb => ?_, advance_setReg_frame s x (rndByte s &&& nn)⟩,
    fun r => ⟨_, rfl, ?_⟩⟩
  · rw [reg_setReg_same, BitVec.getLsbD_and] at hb
    exact (Bool.and_eq_true_iff.1 hb).2
  · rw [reg_setReg_same, rndByte_of_harness]

/-! ## A result and a flag written (R126 to R130, R133) -/

/-- What an instruction leaves that writes a result to `V[x]` and a flag to `VF` and nothing else. -/
theorem advance_writeResultAndFlag_frame (s : State) (x : Reg) (r : Byte) (f : Bool) :
    (∀ j, j ≠ x → j ≠ 15 → (writeResultAndFlag x r f s.advance).reg j = s.reg j) ∧
      (writeResultAndFlag x r f s.advance).pc = s.pc + 2 ∧
      { writeResultAndFlag x r f s.advance with v := s.v, pc := s.pc } = s := by
  refine ⟨fun j hx h15 => ?_, writeResultAndFlag_pc x r f s.advance,
    congrArg (fun u : State => { u with pc := s.pc }) (writeResultAndFlag_frame x r f s.advance)⟩
  have hvf : j ≠ regVF := h15
  rw [reg_writeResultAndFlag]
  cases s.advance.cfg.vfOrder <;> simp [hx, hvf]

/-- The result survives unless the flag is written over it. -/
theorem advance_writeResultAndFlag_dest {s : State} {x : Reg} (hx : x ≠ 15 ∨ s.cfg.vfOrder = .flagFirst) (r : Byte)
    (f : Bool) : (writeResultAndFlag x r f s.advance).reg x = r := by
  rw [reg_writeResultAndFlag, advance_cfg]
  cases ho : s.cfg.vfOrder with
  | flagFirst => exact if_pos rfl
  | flagLast =>
    have hvf : x ≠ regVF := hx.resolve_right (by simp [ho])
    simp [hvf]

/-- The flag survives unless the result is written over it. -/
theorem advance_writeResultAndFlag_vf {s : State} {x : Reg} (hx : x ≠ 15 ∨ s.cfg.vfOrder = .flagLast) (r : Byte)
    (f : Bool) : (writeResultAndFlag x r f s.advance).reg 15 = flagByte f :=
  writeResultAndFlag_vf (s := s.advance) hx r f

/-! ### The flag values and the results -/

theorem flagByte_carryOut (a b : Byte) : flagByte (carryOut a b) = if a.toNat + b.toNat > 255 then 1 else 0 := by
  simp only [flagByte, carryOut, decide_eq_true_eq]

theorem flagByte_noBorrow (a b : Byte) : flagByte (noBorrow a b) = if a.toNat ≥ b.toNat then 1 else 0 := by
  simp only [flagByte, noBorrow, decide_eq_true_eq]

theorem flagByte_toNat (c : Bool) : (flagByte c).toNat = c.toNat := by
  cases c <;> rfl

theorem flagByte_shiftedOutRight_toNat (t : Byte) : (flagByte (shiftedOutRight t)).toNat = t.toNat % 2 := by
  rw [flagByte_toNat, shiftedOutRight, BitVec.getLsbD, Nat.toNat_testBit, pow_zero, Nat.div_one]

theorem flagByte_shiftedOutLeft_toNat (t : Byte) : (flagByte (shiftedOutLeft t)).toNat = t.toNat / 128 := by
  rw [flagByte_toNat, shiftedOutLeft, BitVec.getLsbD, Nat.toNat_testBit]
  exact Nat.mod_eq_of_lt (by omega)

/-- The difference as R127 writes it, with the 256 added before the subtraction. -/
theorem sub_toNat_eq_add_sub (a b : Byte) : (a - b).toNat = (a.toNat + 256 - b.toNat) % 256 := by
  rw [BitVec.toNat_sub]
  omega

theorem ushiftRight_one_toNat (t : Byte) : (t >>> 1).toNat = t.toNat / 2 := by
  rw [BitVec.toNat_ushiftRight, Nat.shiftRight_one]

theorem shiftLeft_one_toNat (t : Byte) : (t <<< 1).toNat = t.toNat * 2 % 256 := by
  rw [BitVec.toNat_shiftLeft, Nat.shiftLeft_eq, pow_one]

/-- The shifted register by the two settings of `P_SHIFT_SRC`. -/
theorem shiftOperand_eq {s : State} {x y : Reg} {o : Byte} (hx : s.cfg.shiftSrc = .vx → o = s.reg x)
    (hy : s.cfg.shiftSrc = .vy → o = s.reg y) : shiftOperand x y s = o := by
  unfold shiftOperand
  cases h : s.cfg.shiftSrc with
  | vx => exact (hx h).symm
  | vy => exact (hy h).symm

/-! ### The five flag writers -/

/-- Settles O21: the sum of bytes is the sum modulo 256, and its carry is the flag. -/
theorem addRegSetsSumAndCarry : Obligations.AddRegSetsSumAndCarry := by
  intro s x y
  refine ⟨decodeOfEncodeIsIdentity _ (.addReg x y), _, rfl, fun hx => ?_, fun hx => ?_,
    advance_writeResultAndFlag_frame s x _ _⟩
  · rw [advance_writeResultAndFlag_dest hx, BitVec.toNat_add]
  · rw [advance_writeResultAndFlag_vf hx, flagByte_carryOut]

/-- Settles O22: the minuend is the destination's old value. -/
theorem subRegSetsDifferenceAndNoBorrow : Obligations.SubRegSetsDifferenceAndNoBorrow := by
  intro s x y
  refine ⟨decodeOfEncodeIsIdentity _ (.subReg x y), _, rfl, fun hx => ?_, fun hx => ?_,
    advance_writeResultAndFlag_frame s x _ _⟩
  · rw [advance_writeResultAndFlag_dest hx, sub_toNat_eq_add_sub]
  · rw [advance_writeResultAndFlag_vf hx, flagByte_noBorrow]

/-- Settles O24: the minuend is the other register. -/
theorem subnRegSetsDifferenceAndNoBorrow : Obligations.SubnRegSetsDifferenceAndNoBorrow := by
  intro s x y
  refine ⟨decodeOfEncodeIsIdentity _ (.subnReg x y), _, rfl, fun hx => ?_, fun hx => ?_,
    advance_writeResultAndFlag_frame s x _ _⟩
  · rw [advance_writeResultAndFlag_dest hx, sub_toNat_eq_add_sub]
  · rw [advance_writeResultAndFlag_vf hx, flagByte_noBorrow]

/-- Settles O23: the operand is the one `P_SHIFT_SRC` names, and the flag is the bit shifted out. -/
theorem shrHalvesAndFlagsBit0 : Obligations.ShrHalvesAndFlagsBit0 := by
  intro s x y o hvx hvy
  obtain rfl := shiftOperand_eq hvx hvy
  refine ⟨decodeOfEncodeIsIdentity _ (.shr x y), _, rfl, fun hx => ?_, fun hx => ?_,
    advance_writeResultAndFlag_frame s x _ _⟩
  · rw [advance_writeResultAndFlag_dest hx, ushiftRight_one_toNat]
  · rw [advance_writeResultAndFlag_vf hx, flagByte_shiftedOutRight_toNat]

/-- Settles O25: the operand is the one `P_SHIFT_SRC` names, and the flag is the bit shifted out. -/
theorem shlDoublesAndFlagsBit7 : Obligations.ShlDoublesAndFlagsBit7 := by
  intro s x y o hvx hvy
  obtain rfl := shiftOperand_eq hvx hvy
  refine ⟨decodeOfEncodeIsIdentity _ (.shl x y), _, rfl, fun hx => ?_, fun hx => ?_,
    advance_writeResultAndFlag_frame s x _ _⟩
  · rw [advance_writeResultAndFlag_dest hx, shiftLeft_one_toNat]
  · rw [advance_writeResultAndFlag_vf hx, flagByte_shiftedOutLeft_toNat]

end Sys2Proof.Machine
end

section
/-! Index register, BCD and block load/store: the loads of `I` by the arithmetic of their value, the memory instructions
by the bounds rule and what the shared store or load leaves, and the optional `LD F10, Vx` (spec/43_index_memory.md). -/

namespace Sys2Proof.Machine

/-! ## The index register (R140 to R142) -/

/-- Settles O27: the address is zero-extended. -/
theorem ldISetsIndex : Obligations.LdISetsIndex := by
  intro s nnn
  exact ⟨decodeOfEncodeIsIdentity _ (.ldI nnn), _, rfl, addrWord_toNat nnn, rfl, rfl⟩

/-- Settles O28: the addition of 16-bit words is the addition modulo 65536. -/
theorem addIAddsRegister : Obligations.AddIAddsRegister := by
  intro s x
  refine ⟨decodeOfEncodeIsIdentity _ (.addI x), _, rfl, ?_, rfl, rfl⟩
  rw [setI_i, BitVec.toNat_add, byteWord_toNat]

/-- A multiple of a byte by at most 257 does not overflow 16 bits: 255 * 257 = 65535. -/
theorem byteWord_mul_toNat (b : Byte) {m : Word16} (hm : m.toNat ≤ 257) :
    (byteWord b * m).toNat = b.toNat * m.toNat := by
  have hle : b.toNat * m.toNat ≤ 255 * 257 := Nat.mul_le_mul (by omega) hm
  rw [BitVec.toNat_mul, byteWord_toNat]
  exact Nat.mod_eq_of_lt (by omega)

/-- Settles O29: five times a byte is kept in full. -/
theorem ldFMultipliesByFive : Obligations.LdFMultipliesByFive := by
  intro s x
  exact ⟨decodeOfEncodeIsIdentity _ (.ldF x), _, rfl, byteWord_mul_toNat (s.reg x) (m := 5) (by decide), rfl, rfl⟩

/-! ## `LD F10, Vx` (R143) -/

/-- Without a selector no word decodes to `LD F10, Vx`: of the five classes keyed by more than the class, only the
default of class F could, and it is `decodeLdF10 none`. -/
theorem decode_none_ne_ldF10 (op : Word16) (x : Reg) : decode none op ≠ .ldF10 x := by
  unfold decode
  split
  case h_1 | h_6 | h_9 | h_15 | h_16 =>
    dsimp only [decodeSystem, decodeSkipReg, decodeAlu, decodeKey, decodeMisc, decodeLdF10]
    split <;> nofun
  all_goals nofun

/-- Beyond its nine selectors class F is `decodeLdF10`. -/
theorem decodeMisc_of_not_selector (k : Option Byte) {op : Word16} (h : fieldNN op ∉ classFSelectors) :
    decodeMisc k op = decodeLdF10 k op := by
  unfold decodeMisc
  split
  case h_10 => rfl
  all_goals next hn => exact absurd (hn ▸ by decide) h

/-- The word of `LD F10, Vx` under its selector decodes to it. -/
theorem decode_encodeLdF10 {kk : Byte} (h : kk ∉ classFSelectors) (x : Reg) :
    decode (some kk) (encodeLdF10 kk x) = .ldF10 x := by
  have hnn : fieldNN (encodeLdF10 kk x) = kk := formatI_nn 0xF x kk
  have hx : fieldX (encodeLdF10 kk x) = x := formatI_x 0xF x kk
  have hmisc : decode (some kk) (encodeLdF10 kk x) = decodeMisc (some kk) (encodeLdF10 kk x) := by
    rw [decode, encodeLdF10, formatI_class]
    rfl
  rw [hmisc, decodeMisc_of_not_selector _ (by rwa [hnn]), decodeLdF10, hnn, if_pos rfl, hx]

/-- A step that fetches `LD F10, Vx` completes. -/
theorem step_of_decode_ldF10 {s : State} {x : Reg} (hh : s.status.halt = false) (hf : s.fetchOut = false)
    (hd : decode s.cfg.encLdF10 (s.wordAt s.pc.toNat) = .ldF10 x) :
    step s = .next (postStep (s.advance.setI (byteWord (s.reg x) * 10))) := by
  rw [step_eq_runDecoded hh hf, hd]
  exact finish_of_running (t := s.advance.setI (byteWord (s.reg x) * 10)) hh

/-- Settles O6: the decoder by `decode_none_ne_ldF10` and `decode_encodeLdF10`; the step is phase 5 after `I` is set. -/
theorem ldF10OnlyWhereItsSelectorIsGiven : Obligations.LdF10OnlyWhereItsSelectorIsGiven := by
  refine ⟨decode_none_ne_ldF10, fun s kk x hkk hsel => ?_⟩
  have hdec : decode s.cfg.encLdF10 (encodeLdF10 kk x) = .ldF10 x := by rw [hkk, decode_encodeLdF10 hsel]
  refine ⟨hdec, fun hh hf hword => ?_⟩
  have hfetch : decode s.cfg.encLdF10 (s.wordAt s.pc.toNat) = .ldF10 x :=
    (congrArg (decode s.cfg.encLdF10) hword).trans hdec
  refine ⟨_, step_of_decode_ldF10 hh hf hfetch, ?_, rfl, postStep_dt_toNat _, postStep_st_toNat _, rfl⟩
  exact (byteWord_mul_toNat (s.reg x) (m := 10) (by decide)).trans (Nat.mul_comm _ _)

/-! ## The bounds rule of the memory instructions (R55, R205) -/

/-- The bounds rule by the greatest offset from `I`. -/
theorem inRange_succ {s : State} {n : Nat} (h : s.cfg.oob = .fault → s.i.toNat + n ≤ 0xFFF) : s.inRange (n + 1) :=
  fun hf => .inr (h hf)

theorem dataOut_succ {s : State} {n : Nat} (hf : s.cfg.oob = .fault) (h : s.i.toNat + n > 0xFFF) :
    s.dataOut (n + 1) = true :=
  dataOut_eq_true.2 ⟨hf, n.succ_pos, h⟩

/-! ## `LD B, Vx` and the block transfers (R144 to R146) -/

/-- What a store of at most 4096 bytes from `I` leaves after the advance. -/
theorem storeFromI_advance_mem {s : State} (hm : Memory.wf s.mem) {bytes : List Byte} (hlen : bytes.length ≤ 4096) :
    (∀ k (hk : k < bytes.length),
      (storeFromI bytes s.advance).mem.read ((s.i.toNat + k) % 4096) = bytes[k]) ∧
    (∀ a, (∀ k < bytes.length, a ≠ (s.i.toNat + k) % 4096) →
      (storeFromI bytes s.advance).mem.read a = s.mem.read a) :=
  ⟨fun k hk => read_storeBytes_same bytes s.i.toNat k hm hlen hk, read_storeBytes_other bytes s.mem s.i.toNat⟩

/-- Settles O30: the three digits are stored in order, and each fits its byte. -/
theorem ldBStoresDigits : Obligations.LdBStoresDigits := by
  intro s x
  refine ⟨decodeOfEncodeIsIdentity _ (.ldB x), fun hm hin => ?_,
    fun hf hi => withData_of_dataOut (dataOut_succ hf hi) _⟩
  obtain ⟨hsame, hother⟩ := storeFromI_advance_mem hm (bytes := bcdDigits (s.reg x)) (by decide : 3 ≤ 4096)
  refine ⟨_, withData_of_inRange (inRange_succ hin) _, ?_, ?_, ?_, fun a ha => ?_, rfl, rfl⟩
  · exact (congrArg BitVec.toNat (hsame 0 (by decide : 0 < 3))).trans (Nat.mod_eq_of_lt (by omega))
  · exact (congrArg BitVec.toNat (hsame 1 (by decide : 1 < 3))).trans (Nat.mod_eq_of_lt (by omega))
  · exact (congrArg BitVec.toNat (hsame 2 (by decide : 2 < 3))).trans (Nat.mod_eq_of_lt (by omega))
  · exact hother a fun k hk => ha k (Nat.le_of_lt_succ hk)

/-- Settles O31: the stored block is `V[0]` to `V[X]` in order. -/
theorem storeRegsStoresBlock : Obligations.StoreRegsStoresBlock := by
  intro s x
  have hlen := length_firstRegs s (x.toNat + 1)
  refine ⟨decodeOfEncodeIsIdentity _ (.storeRegs x), fun hm hin => ?_,
    fun hf hi => withData_of_dataOut (dataOut_succ hf hi) _⟩
  obtain ⟨hsame, hother⟩ := storeFromI_advance_mem hm (bytes := s.firstRegs (x.toNat + 1)) (by omega)
  refine ⟨_, withData_of_inRange (inRange_succ hin) _, fun k hk => ?_, fun a ha => ?_, rfl, rfl⟩
  · rw [hsame k.toNat (by omega), getElem_firstRegs, BitVec.ofNat_toNat, BitVec.setWidth_eq]
  · exact hother a fun k hk => ha k (by omega)

/-- A block load after the advance leaves `pc` one word on and changes nothing else but registers. -/
theorem loadFromI_advance_frame (n : Nat) (s : State) :
    (loadFromI n s.advance).pc = s.pc + 2 ∧ { loadFromI n s.advance with v := s.v, pc := s.pc } = s :=
  have h := loadFromI_frame n s.advance
  ⟨congrArg State.pc h, congrArg (fun u : State => { u with pc := s.pc }) h⟩

/-- Settles O32: the block loaded is the first `X + 1` registers. -/
theorem loadRegsLoadsBlock : Obligations.LoadRegsLoadsBlock := by
  intro s x
  refine ⟨decodeOfEncodeIsIdentity _ (.loadRegs x), fun hin => ?_,
    fun hf hi => withData_of_dataOut (dataOut_succ hf hi) _⟩
  refine ⟨_, withData_of_inRange (inRange_succ hin) _, fun k hk => ?_, fun k hk => ?_,
    loadFromI_advance_frame (x.toNat + 1) s⟩
  · rw [reg_loadFromI _ (by omega), if_pos (by omega)]
    rfl
  · rw [reg_loadFromI _ (by omega), if_neg (by omega)]
    rfl

end Sys2Proof.Machine
end

section
/-! Display: `CLS`, and `DRW` by the cells its sprite hits: what one draw leaves, and what a second draw of the same
sprite at the same place does to it (spec/44_display.md). -/

namespace Sys2Proof.Machine

/-! ## `CLS` (R160) -/

/-- The encoder writes the second nibble of `CLS` as 0; the decoder reads any (R75). -/
theorem decode_formatI_cls (k : Option Byte) (x : Reg) : decode k (formatI 0x0 x 0xE0) = .instr .cls :=
  decode_of_row (i := .cls) (formatI_selMask 0x0 x 0xE0)

/-- Settles O33: the framebuffer is replaced by the clear one, and only the advance of `pc` comes with it. -/
theorem clsClearsEveryCell : Obligations.ClsClearsEveryCell := by
  intro s
  exact ⟨decode_formatI_cls _, _, rfl, lit_clear, rfl, rfl⟩

/-! ## One draw (R161) -/

/-- The state a draw that passes the range check leaves. -/
def afterDrw (x y : Reg) (n : Nibble) (s : State) : State := drawSprite (drwPixels x y n s) s.advance

theorem exec_drw_of_inRange {s : State} {n : Nibble} (h : s.inRange n.toNat) (x y : Reg) :
    exec (.drw x y n) s = .next (afterDrw x y n s) :=
  withData_of_inRange h _

/-- No draw writes more than the framebuffer, `V` and `pc`. -/
theorem afterDrw_frame (x y : Reg) (n : Nibble) (s : State) :
    (afterDrw x y n s).pc = s.pc + 2 ∧ { afterDrw x y n s with fb := s.fb, v := s.v, pc := s.pc } = s :=
  ⟨rfl, rfl⟩

/-- Of the registers a draw writes `VF` only. -/
theorem afterDrw_reg_other (x y : Reg) (n : Nibble) (s : State) {j : Reg} (hj : j ≠ 15) :
    (afterDrw x y n s).reg j = s.reg j :=
  reg_setReg_other _ _ hj

section
variable {s : State} {x y : Reg} {n : Nibble} {p : Pixel}

theorem afterDrw_lit_of_hit (h : spriteHits s x y n p) : (afterDrw x y n s).fb.lit p = !s.fb.lit p :=
  (lit_drawPixels _ s.fb false (nodup_drwPixels s x y n) p).trans (if_pos (mem_drwPixels.2 h))

theorem afterDrw_lit_of_not_hit (h : ¬ spriteHits s x y n p) : (afterDrw x y n s).fb.lit p = s.fb.lit p :=
  (lit_drawPixels _ s.fb false (nodup_drwPixels s x y n) p).trans (if_neg (mt mem_drwPixels.1 h))

/-- The collision flag is up iff a cell the sprite hits was lit. -/
theorem coll_drwPixels :
    (drawPixels s.fb false (drwPixels x y n s)).2 = true ↔ ∃ p, spriteHits s x y n p ∧ s.fb.lit p = true := by
  rw [coll_drawPixels _ _ _ (nodup_drwPixels s x y n)]
  simp [mem_drwPixels]

theorem afterDrw_vf :
    (afterDrw x y n s).reg 15 = flagByte (drawPixels s.fb false (drwPixels x y n s)).2 :=
  reg_setReg_same _ regVF _

theorem afterDrw_vf_of_collision (h : ∃ p, spriteHits s x y n p ∧ s.fb.lit p = true) :
    (afterDrw x y n s).reg 15 = 1 := by
  rw [afterDrw_vf, coll_drwPixels.2 h]
  rfl

theorem afterDrw_vf_of_no_collision (h : ¬ ∃ p, spriteHits s x y n p ∧ s.fb.lit p = true) :
    (afterDrw x y n s).reg 15 = 0 := by
  rw [afterDrw_vf, Bool.eq_false_iff.2 (mt coll_drwPixels.1 h)]
  rfl

/-- The bounds rule by the number of rows as a nibble. -/
theorem inRange_of_rows (h : s.cfg.oob = .fault → n = 0 ∨ s.i.toNat + n.toNat - 1 ≤ 0xFFF) : s.inRange n.toNat :=
  fun hf => (h hf).imp_left fun hn => congrArg BitVec.toNat hn

end

/-- Settles O34: the cells drawn are the cells hit (`mem_drwPixels`), each drawn once (`nodup_drwPixels`). -/
theorem drwFlipsHitCellsAndFlagsCollision : Obligations.DrwFlipsHitCellsAndFlagsCollision := by
  intro s x y n
  refine ⟨decodeOfEncodeIsIdentity _ (.drw x y n), fun hin => ?_, fun hf hn hi => ?_⟩
  · exact ⟨_, exec_drw_of_inRange (inRange_of_rows hin) x y, fun _ => afterDrw_lit_of_hit,
      fun _ => afterDrw_lit_of_not_hit, afterDrw_vf_of_collision, afterDrw_vf_of_no_collision,
      fun _ => afterDrw_reg_other x y n s, afterDrw_frame x y n s⟩
  · have hpos : 0 < n.toNat := Nat.pos_of_ne_zero fun h0 => hn (BitVec.eq_of_toNat_eq h0)
    exact withData_of_dataOut (dataOut_eq_true.2 ⟨hf, hpos, hi⟩) _

/-! ## A second draw of the same sprite at the same place (R161) -/

/-- The cells a sprite hits do not depend on the framebuffer. -/
theorem spriteHits_congr {s u : State} {x y : Reg} (n : Nibble) (hmem : u.mem = s.mem) (hi : u.i = s.i)
    (hcfg : u.cfg = s.cfg) (hx : u.reg x = s.reg x) (hy : u.reg y = s.reg y) (p : Pixel) :
    spriteHits u x y n p ↔ spriteHits s x y n p := by
  unfold spriteHits
  rw [hmem, hi, hcfg, hx, hy]

theorem inRange_congr {s u : State} {n : Nat} (hi : u.i = s.i) (hcfg : u.cfg = s.cfg) (h : s.inRange n) :
    u.inRange n := by
  unfold State.inRange
  rwa [hi, hcfg]

/-- Settles O35: the second draw hits the same cells. It flips each back, and finds lit exactly those that were unlit
before the first. -/
theorem drawTwiceRestoresFramebuffer : Obligations.DrawTwiceRestoresFramebuffer := by
  intro s t u x y n hin hexec hfb hmem hi hcfg hx hy
  rw [exec_drw_of_inRange hin] at hexec
  cases hexec
  have hhits := spriteHits_congr n hmem hi hcfg hx hy
  have hflipped : ∀ p, spriteHits s x y n p → u.fb.lit p = !s.fb.lit p := fun p hp => by
    rw [hfb, afterDrw_lit_of_hit hp]
  refine ⟨_, exec_drw_of_inRange (inRange_congr hi hcfg hin) x y, screen_ext fun p => ?_, ?_, fun hno => ?_⟩
  · by_cases hp : spriteHits s x y n p
    · rw [afterDrw_lit_of_hit ((hhits p).2 hp), hflipped p hp, Bool.not_not]
    · rw [afterDrw_lit_of_not_hit (mt (hhits p).1 hp), hfb, afterDrw_lit_of_not_hit hp]
  · rintro ⟨p, hp, hunlit⟩
    exact afterDrw_vf_of_collision ⟨p, (hhits p).2 hp, by rw [hflipped p hp, hunlit]; rfl⟩
  · refine afterDrw_vf_of_no_collision fun ⟨p, hp, hlit⟩ => hno ⟨p, (hhits p).1 hp, ?_⟩
    rwa [hflipped p ((hhits p).1 hp), Bool.not_eq_true'] at hlit

/-- A sprite of one pixel at address 0, under a framebuffer with every cell lit. -/
def allLit : State :=
  { State.reset with mem := [(0, 0x80)], fb := Vector.replicate 32 (Vector.replicate 64 true) }

theorem allLit_lit (p : Pixel) : allLit.fb.lit p = true := by
  simp [allLit, Screen.lit]

theorem allLit_inRange : allLit.inRange (1 : Nibble).toNat := fun _ => .inr (by decide)

theorem allLit_hits : spriteHits allLit 0 0 1 (0, 0) :=
  ⟨0, 0, by decide, by decide, by decide, show _ ∧ _ by decide⟩

/-- Refutes O36: on a framebuffer with every cell lit the first draw turns its hit cells off, so that by
`drawTwiceRestoresFramebuffer` the second finds none lit and leaves `VF = 0`. -/
theorem not_secondDrawAlwaysCollides : ¬ Obligations.SecondDrawAlwaysCollides := by
  intro h
  have hfirst := exec_drw_of_inRange allLit_inRange 0 0
  have hreg : (afterDrw 0 0 1 allLit).reg 0 = allLit.reg 0 := afterDrw_reg_other 0 0 1 allLit (by decide)
  obtain ⟨w, hw, hone⟩ := h allLit (afterDrw 0 0 1 allLit) (afterDrw 0 0 1 allLit) 0 0 1 rfl allLit_inRange
    ⟨_, allLit_hits⟩ hfirst rfl rfl rfl rfl hreg hreg
  obtain ⟨w', hw', -, -, hzero⟩ := drawTwiceRestoresFramebuffer allLit _ _ 0 0 1 allLit_inRange hfirst
    rfl rfl rfl rfl hreg hreg
  obtain rfl : w = w' := Host.Outcome.next.inj (hw.symm.trans hw')
  have hnone : ¬ ∃ p, spriteHits allLit 0 0 1 p ∧ allLit.fb.lit p = false :=
    fun ⟨p, _, hunlit⟩ => absurd (allLit_lit p) (by rw [hunlit]; decide)
  exact absurd (hone.symm.trans (hzero hnone)) (by decide)

end Sys2Proof.Machine
end

section
/-! Keys and timers: a key skip by the cell its register names, the key wait by the least pressed key, and what phase 5
makes of a timer the step itself has read or written (spec/45_timers_keys.md R170 to R175). -/

namespace Sys2Proof.Machine

/-! ## The key cell a register names (R170, R171) -/

/-- `KeyCell` names cell `k` for the value `k`, and under `mask4` for a value above 15 with low four bits `k`. -/
theorem keyIndexOf_eq_some {policy : KeyIndexPolicy} {v : Byte} {k : Fin 16}
    (h : v.toNat = k.val ∨ (policy = .mask4 ∧ v.toNat > 15 ∧ v.toNat % 16 = k.val)) :
    keyIndexOf policy v = some k := by
  rcases h with hv | ⟨rfl, hbig, hv⟩
  · have hle : v.toNat ≤ 15 := by omega
    unfold keyIndexOf
    rw [dif_pos hle]
    exact congrArg some (Fin.ext hv)
  · rw [keyIndexOf, dif_neg (by omega)]
    exact congrArg some (Fin.ext hv)

theorem keyIndexOf_fault_eq_none {v : Byte} (h : v.toNat > 15) : keyIndexOf .fault v = none := by
  rw [keyIndexOf, dif_neg (by omega)]

/-- A key skip whose register names cell `k` has `pc` two words on where the cell holds the wanted value, one word on
where it does not, and writes nothing else. -/
theorem exists_skip_on_key {i : Instr} {w : Bool} {x : Reg} {s : State} (hi : exec i s = skipOnKey w x s) {k : Fin 16}
    (hk : (s.reg x).toNat = k.val ∨
      (s.cfg.keyIndex = .mask4 ∧ (s.reg x).toNat > 15 ∧ (s.reg x).toNat % 16 = k.val)) :
    ∃ t, exec i s = .next t ∧ { t with pc := s.pc } = s ∧ (s.key[k] = w → t.pc = s.pc + 4) ∧
      (s.key[k] = !w → t.pc = s.pc + 2) := by
  have hskip : exec i s = .next (s.advance.skipIf (decide (s.key[k] = w))) := by
    rw [hi, skipOnKey, keyIndexOf_eq_some hk]
  obtain ⟨t, hexec, hframe, hwanted, hother⟩ := exists_skip_on hskip
  exact ⟨t, hexec, hframe, hwanted, fun hcell => hother (hcell ▸ Bool.not_ne_self w)⟩

/-- A key skip takes `KeyIndex` under `P_KEY_INDEX = fault` for a register above 15 (R206). -/
theorem skipOnKey_of_fault {x : Reg} {s : State} (w : Bool) (hpolicy : s.cfg.keyIndex = .fault)
    (hbig : (s.reg x).toNat > 15) : skipOnKey w x s = .next (takeFault .keyIndex (s.reg x).toNat s) := by
  rw [skipOnKey, hpolicy, keyIndexOf_fault_eq_none hbig]

/-- Settles O37: `SKP` is the key skip that wants a pressed key. -/
theorem skpSkipsIffKeyPressed : Obligations.SkpSkipsIffKeyPressed := by
  intro s x
  exact ⟨decodeOfEncodeIsIdentity _ (.skp x), fun _ => exists_skip_on_key (w := true) rfl, skipOnKey_of_fault true⟩

/-- Settles O38: `SKNP` is the key skip that wants a key not pressed. -/
theorem sknpSkipsIffKeyNotPressed : Obligations.SknpSkipsIffKeyNotPressed := by
  intro s x
  exact ⟨decodeOfEncodeIsIdentity _ (.sknp x), fun _ => exists_skip_on_key (w := false) rfl,
    skipOnKey_of_fault false⟩

/-! ## Timers read and written (R172, R174, R175) -/

/-- A step that fetches an instruction which leaves `STATUS` alone completes: phase 5 after the instruction. -/
theorem step_eq_postStep_of_fetches {s u : State} {i : Instr} (hi : s.fetches i) (hexec : exec i s = .next u)
    (hstatus : u.status = s.status) : step s = .next (postStep u) := by
  have hrun : u.status.halt = false := by rw [hstatus, hi.1]
  rw [step_of_fetches hi, hexec, finish_of_running hrun]

/-- Settles O39: the register takes `DT` before phase 5 counts it down. -/
theorem ldVxDtReadsDelayTimer : Obligations.LdVxDtReadsDelayTimer := by
  intro s x
  have hread : (s.advance.setReg x s.dt).reg x = s.dt := reg_setReg_same s.advance x s.dt
  refine ⟨decodeOfEncodeIsIdentity _ (.ldVxDt x), ⟨_, rfl, hread, advance_setReg_frame s x s.dt⟩, fun hi => ?_⟩
  exact ⟨_, step_eq_postStep_of_fetches hi rfl rfl, hread, postStep_dt_toNat _⟩

/-- Settles O41: phase 5 counts down the value just written. -/
theorem ldDtVxSetsDelayTimer : Obligations.LdDtVxSetsDelayTimer := by
  intro s x
  refine ⟨decodeOfEncodeIsIdentity _ (.ldDtVx x), ⟨_, rfl, rfl, rfl, rfl⟩, fun hi => ?_⟩
  exact ⟨_, step_eq_postStep_of_fetches hi rfl rfl, postStep_dt_toNat _, postStep_st_toNat _⟩

/-- The host hears a tone after a completed step iff phase 5 found `ST` at 2 or more. -/
theorem tone_postStep_iff (u : State) : tone (postStep u) = true ↔ 2 ≤ u.st.toNat := by
  rw [tone, decide_eq_true_iff, postStep_st_toNat]
  omega

/-- Settles O42: phase 5 counts down the value just written, and the tone is sampled after it. -/
theorem ldStVxSetsSoundTimer : Obligations.LdStVxSetsSoundTimer := by
  intro s x
  refine ⟨decodeOfEncodeIsIdentity _ (.ldStVx x), ⟨_, rfl, rfl, rfl, rfl⟩, fun hi => ?_⟩
  exact ⟨_, step_eq_postStep_of_fetches hi rfl rfl, postStep_st_toNat _, postStep_dt_toNat _, tone_postStep_iff _⟩

/-! ## The key wait (R173) -/

/-- The keys are searched upward, so a pressed key with none pressed below it is the one found. -/
theorem lowestKey_eq_some {keys : Keys} {k : Fin 16} (hk : keys[k] = true)
    (hbelow : ∀ j : Fin 16, j < k → keys[j] = false) : lowestKey keys = some k := by
  refine List.find?_eq_some_iff_getElem.2 ⟨hk, k.val, by simp, by simp, fun j hj => ?_⟩
  rw [List.getElem_finRange, Bool.not_eq_true']
  exact hbelow ⟨j, by omega⟩ hj

theorem lowestKey_eq_none {keys : Keys} (h : ∀ j : Fin 16, keys[j] = false) : lowestKey keys = none :=
  List.find?_eq_none.2 fun j _ => by simp [h j]

theorem exec_ldVxK_of_lowestKey {s : State} {k : Fin 16} (x : Reg) (h : lowestKey s.key = some k) :
    exec (.ldVxK x) s = .next (s.advance.setReg x (BitVec.ofNat 8 k.val)) := by
  rw [exec, execLdVxK, h]

/-- With no key pressed the key wait rolls its advance back: it answers its own state. -/
theorem exec_ldVxK_of_no_key {s : State} (x : Reg) (h : ∀ j : Fin 16, s.key[j] = false) :
    exec (.ldVxK x) s = .next s := by
  have hpc : s.advance.pc - 2 = s.pc := BitVec.add_sub_cancel s.pc 2
  rw [exec, execLdVxK, lowestKey_eq_none h, hpc]
  rfl

/-- Settles O40: with a key pressed the wait loads the least one; with none, a step that waits is phase 5 alone. -/
theorem ldVxKTakesLowestKeyOrWaits : Obligations.LdVxKTakesLowestKeyOrWaits := by
  intro s x
  refine ⟨decodeOfEncodeIsIdentity _ (.ldVxK x), fun k hk hbelow => ?_, exec_ldVxK_of_no_key x, fun hnone hi => ?_⟩
  · refine ⟨_, exec_ldVxK_of_lowestKey x (lowestKey_eq_some hk hbelow), ?_, advance_setReg_frame s x _⟩
    rw [reg_setReg_same, BitVec.toNat_ofNat]
    omega
  · exact ⟨_, step_eq_postStep_of_fetches hi (exec_ldVxK_of_no_key x hnone) rfl, postStep_dt_toNat s,
      postStep_st_toNat s, postStep_frame s⟩

end Sys2Proof.Machine
end

section
/-! Exceptions: the unrecognized word, a completed step that only reports (R202), and the fatal fault, a step that
writes nothing but `STATUS` (R208). Which fault a step takes is said once, by `StepRaises` (spec/60_exceptions.md). -/

namespace Sys2Proof.Machine

/-! ## The decode report (R202) -/

/-- A step that fetches an unrecognized word completes: the report, the advance, phase 5. -/
theorem step_of_decode_unrecognized {s : State} {op : Word16} (hh : s.status.halt = false) (hf : s.fetchOut = false)
    (hd : decode s.cfg.encLdF10 (s.wordAt s.pc.toNat) = .unrecognized op) :
    step s = .next (postStep (reportDecodeError op s).advance) := by
  have hrun : (reportDecodeError op s).advance.status.halt = false := hh
  rw [step_eq_runDecoded hh hf, hd]
  exact finish_of_running hrun

theorem reportDecodeError_first {s : State} (op : Word16) (h : s.status.derr = false) :
    (reportDecodeError op s).status.derrPc = s.pc ∧ (reportDecodeError op s).status.derrOp = op := by
  simp [reportDecodeError, h]

theorem reportDecodeError_later {s : State} (op : Word16) (h : s.status.derr = true) :
    (reportDecodeError op s).status.derrPc = s.status.derrPc ∧
      (reportDecodeError op s).status.derrOp = s.status.derrOp := by
  simp [reportDecodeError, h]

/-- Of the host's moves exactly reset clears a report. -/
theorem hostMove_derr_eq_false_iff {t : State} (h : t.status.derr = true) (m : HostMove) :
    (hostMove m t).status.derr = false ↔ m = .reset := by
  cases m with
  | reset => exact ⟨fun _ => rfl, fun _ => rfl⟩
  | keys k =>
    have hkeys : (hostMove (.keys k) t).status.derr = true := h
    simp [hkeys]

/-- Settles O46: the step is phase 5 after the report and the advance; the next step keeps `DERR` by
`derrIsStickyWithFirstCapture`. -/
theorem unrecognizedWordIsReportedNoOp : Obligations.UnrecognizedWordIsReportedNoOp := by
  intro s op hh hin hword hdec
  have hf : s.fetchOut = false := (fetchOut_eq_false_iff s).2 fun ⟨hoob, hpc⟩ => absurd (hin hoob) (by omega)
  have hfetch : decode s.cfg.encLdF10 (s.wordAt s.pc.toNat) = .unrecognized op := by
    rw [wordAt_eq_bigEndian, hword, hdec]
  refine ⟨_, step_of_decode_unrecognized hh hf hfetch, rfl, postStep_dt_toNat _, postStep_st_toNat _, rfl,
    reportDecodeError_first op, reportDecodeError_later op, rfl, rfl, fun u hu => ?_, hostMove_derr_eq_false_iff rfl⟩
  obtain ⟨hsticky, -⟩ := derrIsStickyWithFirstCapture _ u hu
  exact (hsticky rfl).1

/-! ## Fatal faults (R200, R208) -/

/-- The fatal fault that a step from `s` raises, with the value it records: `FetchBounds` where the fetch leaves memory,
else the fault of the instruction it fetches. -/
inductive StepRaises (s : State) : FatalFault → Nat → Prop
  | fetch (hf : s.fetchOut = true) : StepRaises s .fetchBounds (max s.pc.toNat 0x1000)
  | instr {i : Instr} {f : FatalFault} {n : Nat} (hi : s.fetches i) (hr : Raises i s f n) : StepRaises s f n

/-- Phase 5 halts nothing: what `finish` answers halted, it was given. -/
theorem eq_next_of_finish_halts {o : Host.Outcome State Fault Refusal} {t : State} (h : finish o = .next t)
    (ht : t.status.halt = true) : o = .next t := by
  obtain ⟨u, rfl, rfl | rfl⟩ := finish_eq_next h
  · rfl
  · have hu : u.status.halt = true := ht
    exact (finish_of_halted hu).symm.trans h

/-- A step of a running engine that ends halted has taken the fault it raises. -/
theorem exists_stepRaises_of_halts {s t : State} (hh : s.status.halt = false) (h : step s = .next t)
    (ht : t.status.halt = true) : ∃ f n, t = takeFault f n s ∧ StepRaises s f n := by
  have hne : t.status ≠ s.status := fun he => by simp [he, hh] at ht
  rcases step_cases h with ⟨-, rfl⟩ | ⟨-, hf, rfl⟩ | ⟨-, hf, ⟨i, hdec, hfin⟩ | ⟨x, -, hfin⟩ | ⟨op, -, rfl⟩⟩
  · exact absurd rfl hne
  · exact ⟨_, _, rfl, .fetch hf⟩
  · rcases exec_cases (eq_next_of_finish_halts hfin ht) with ⟨f, n, rfl, hr⟩ | hdone
    · exact ⟨f, n, rfl, .instr ⟨hh, hf, hdec⟩ hr⟩
    · exact absurd hdone.status hne
  · cases eq_next_of_finish_halts hfin ht
    exact absurd rfl hne
  · cases hh.symm.trans ht

/-- `FAULT_OP` is the fetched word for every cause but `FetchBounds`. -/
theorem takeFault_faultOp {f : FatalFault} (hf : causeCode f ≠ 5) (n : Nat) (s : State) :
    (takeFault f n s).status.faultOp = s.bigEndian s.pc.toNat := by
  cases f with
  | fetchBounds => exact absurd rfl hf
  | _ => rfl

/-- `FAULT_INFO` of a key fault holds the register in full. -/
theorem toNat_ofNat_byte (b : Byte) : (BitVec.ofNat 17 b.toNat).toNat = b.toNat := by
  rw [BitVec.toNat_ofNat]
  omega

/-- Settles O48: `takeFault` writes only `STATUS`, and the row is the one of the fault the step raises. -/
theorem fatalFaultIsPreciseAndRecorded : Obligations.FatalFaultIsPreciseAndRecorded := by
  intro s t hh h ht
  obtain ⟨f, n, rfl, hraises⟩ := exists_stepRaises_of_halts hh h ht
  refine ⟨rfl, rfl, rfl, fun hf => takeFault_faultOp hf n s, ?_⟩
  cases hraises with
  | fetch hf =>
    obtain ⟨hoob, hpc⟩ := (fetchOut_eq_true_iff s).1 hf
    exact .inr (.inr (.inr (.inl ⟨rfl, hoob, hpc, rfl, toNat_ofNat_max_bound s.pc⟩)))
  | @instr i _ _ hi hr =>
    cases f with
    | stackOverflow =>
      obtain ⟨⟨nnn, rfl⟩, hsp, rfl⟩ := hr
      exact .inl ⟨rfl, ⟨nnn, hi⟩, hsp, rfl⟩
    | stackUnderflow =>
      obtain ⟨rfl, hsp, rfl⟩ := hr
      exact .inr (.inl ⟨rfl, hi, hsp, rfl⟩)
    | memBounds =>
      obtain ⟨⟨hoob, hlen, hout⟩, rfl⟩ := hr
      exact .inr (.inr (.inl ⟨rfl, hoob, ⟨i, hi, hlen, hout⟩, toNat_ofNat_max_bound s.i⟩))
    | fetchBounds => exact hr.elim
    | keyIndex =>
      obtain ⟨hkey, x, hx, hbig, rfl⟩ := hr
      have hskip : s.fetches (.skp x) ∨ s.fetches (.sknp x) :=
        hx.imp (fun (he : i = .skp x) => he ▸ hi) fun (he : i = .sknp x) => he ▸ hi
      exact .inr (.inr (.inr (.inr ⟨rfl, hkey, x, hskip, hbig, toNat_ofNat_byte (s.reg x)⟩)))

end Sys2Proof.Machine
end

section
/-! Reset and hazards: the self-jump that ends a program, whose steps leave only the timers running
(spec/70_reset_and_hazards.md R240). -/

namespace Sys2Proof.Machine

/-! ## The self-jump (R240) -/

theorem addrWord_setWidth {a : Word16} (h : a.toNat ≤ 0xFFF) : addrWord (a.setWidth 12) = a := by
  apply BitVec.eq_of_toNat_eq
  rw [addrWord_toNat, BitVec.toNat_setWidth]
  omega

/-- The opcode `1NNN`, written as a disjunction, is the encoder's word for the jump to that address. -/
theorem or_addrWord_eq_encode_jp (nnn : Addr12) : 0x1000 ||| addrWord nnn = encode (.jp nnn) := by
  rw [encode, formatA, BitVec.append_def]
  rfl

/-- At a self-jump the step fetches a jump whose target is `pc` itself. -/
theorem fetches_jp_pc_of_atSelfJump {s : State} (hh : s.status.halt = false) (hjump : s.atSelfJump) :
    ∃ nnn, addrWord nnn = s.pc ∧ s.fetches (.jp nnn) := by
  obtain ⟨hfetch, hword, hpc⟩ := hjump
  have htarget : addrWord (s.pc.setWidth 12) = s.pc := addrWord_setWidth hpc
  have hencode : s.wordAt s.pc.toNat = encode (.jp (s.pc.setWidth 12)) := by
    rw [hword, ← or_addrWord_eq_encode_jp, htarget]
  exact ⟨s.pc.setWidth 12, htarget, hh, hfetch, hencode ▸ decodeOfEncodeIsIdentity _ _⟩

theorem exec_jp_pc {s : State} {nnn : Addr12} (h : addrWord nnn = s.pc) : exec (.jp nnn) s = .next s := by
  change Host.Outcome.next (s.advance.setPc (addrWord nnn)) = .next s
  rw [h]
  rfl

theorem step_of_atSelfJump {s : State} (hh : s.status.halt = false) (hjump : s.atSelfJump) :
    step s = .next (postStep s) := by
  obtain ⟨nnn, htarget, hi⟩ := fetches_jp_pc_of_atSelfJump hh hjump
  exact step_eq_postStep_of_fetches hi (exec_jp_pc htarget) rfl

/-- Settles O59: the jump answers the state it ran on, so the step is phase 5 alone, which writes neither `pc` nor
memory. -/
theorem selfJumpOnlyCountsTimersDown : Obligations.SelfJumpOnlyCountsTimersDown := by
  intro s hh hjump
  exact ⟨postStep s, step_of_atSelfJump hh hjump, postStep_dt_toNat s, postStep_st_toNat s, postStep_frame s, hjump⟩

end Sys2Proof.Machine
end
